-- ==== Sys2Proof/Word.lean ====
section
/-! DEFINITION. The words of the CHIP-8 core: a byte, a 16-bit word and the fields of an instruction
word (spec/00_scope.md R4, spec/30_encoding.md R43). -/

namespace Sys2Proof

/-- One byte: a general register, a timer or a cell of memory (R7, R13, R14). -/
abbrev Byte := BitVec 8

/-- A 16-bit word: an instruction word, the program counter, a stack slot (R10, R12, R42). -/
abbrev Word := BitVec 16

/-- The 4-bit field x or y of an instruction word, naming one of V0..VF (R43). -/
abbrev RegIx := BitVec 4

/-- The 4-bit field n (R43). -/
abbrev Nibble := BitVec 4

/-- The 12-bit field nnn (R43). -/
abbrev Addr12 := BitVec 12

/-- The index of VF, the flag register (R6, R8). -/
abbrev flagIx : RegIx := 0xF#4

/-- The Boolean-to-bit function of the notation, as the byte a flag writes (spec/00_scope.md section 4). -/
def bitByte (c : Bool) : Byte := if c then 1 else 0

end Sys2Proof
end

