-- ==== Sys2Proof/Syntax.lean ====
section
/-! DEFINITION. The 34 instructions of spec/30_encoding.md R46, one constructor per row of
spec/opcode_table.json. Operand types carry the fields' widths (R43), so every term is an
instruction the encoding admits. -/

namespace Sys2Proof

/-- An instruction of the core (R1, R46). Each constructor's docstring gives its word and its rule. -/
inductive Instr where
  /-- 00E0, R55 -/
  | cls
  /-- 00EE, R65 -/
  | ret
  /-- 1nnn, R66 -/
  | jpAddr (nnn : Addr12)
  /-- 2nnn, R68 -/
  | callAddr (nnn : Addr12)
  /-- 3xnn, R70 -/
  | seVxByte (x : RegIx) (nn : Byte)
  /-- 4xnn, R71 -/
  | sneVxByte (x : RegIx) (nn : Byte)
  /-- 5xy0, R72 -/
  | seVxVy (x y : RegIx)
  /-- 6xnn, R77 -/
  | ldVxByte (x : RegIx) (nn : Byte)
  /-- 7xnn, R78 -/
  | addVxByte (x : RegIx) (nn : Byte)
  /-- 8xy0, R79 -/
  | ldVxVy (x y : RegIx)
  /-- 8xy1, R80 -/
  | orVxVy (x y : RegIx)
  /-- 8xy2, R81 -/
  | andVxVy (x y : RegIx)
  /-- 8xy3, R82 -/
  | xorVxVy (x y : RegIx)
  /-- 8xy4, R83 -/
  | addVxVy (x y : RegIx)
  /-- 8xy5, R84 -/
  | subVxVy (x y : RegIx)
  /-- 8xy6, R85; y is decoded and execution ignores it -/
  | shrVxVy (x y : RegIx)
  /-- 8xy7, R86 -/
  | subnVxVy (x y : RegIx)
  /-- 8xyE, R87; y is decoded and execution ignores it -/
  | shlVxVy (x y : RegIx)
  /-- 9xy0, R73 -/
  | sneVxVy (x y : RegIx)
  /-- Annn, R90 -/
  | ldIAddr (nnn : Addr12)
  /-- Bnnn, R74 -/
  | jpV0Addr (nnn : Addr12)
  /-- Cxnn, R89 -/
  | rndVxByte (x : RegIx) (nn : Byte)
  /-- Dxyn, R59 -/
  | drwVxVyNibble (x y : RegIx) (n : Nibble)
  /-- Ex9E, R97 -/
  | skpVx (x : RegIx)
  /-- ExA1, R98 -/
  | sknpVx (x : RegIx)
  /-- Fx07, R101 -/
  | ldVxDt (x : RegIx)
  /-- Fx0A, R99 -/
  | ldVxK (x : RegIx)
  /-- Fx15, R102 -/
  | ldDtVx (x : RegIx)
  /-- Fx18, R103 -/
  | ldStVx (x : RegIx)
  /-- Fx1E, R91 -/
  | addIVx (x : RegIx)
  /-- Fx29, R92 -/
  | ldIVx (x : RegIx)
  /-- Fx33, R93 -/
  | ldBVx (x : RegIx)
  /-- Fx55, R94: LD [I], Vx -/
  | ldMemVx (x : RegIx)
  /-- Fx65, R95: LD Vx, [I] -/
  | ldVxMem (x : RegIx)
deriving DecidableEq, Repr

end Sys2Proof
end

