-- ==== Sys2Proof/WellFormed.lean ====
section
/-! DEFINITION. When an instruction is well formed. The operand types of Instr carry their fields'
widths (spec/30_encoding.md R43), so every term of Instr is well formed; what can be ill formed is the
assembly line it is written as, whose registers and numbers R53 bounds. Line.wf is that check. -/

namespace Sys2Proof

/-- The mnemonic words of R53. -/
inductive Mnemonic where
  | cls | ret | jp | call | se | sne | ld | add | or | and | xor | sub | shr | subn | shl | rnd | drw | skp | sknp
deriving DecidableEq, Repr

/-- An operand as R53 writes it: a register by its number, a number, or one of the literal operands. -/
inductive Operand where
  /-- V0..VF, by number -/
  | v (r : Nat)
  /-- addr, byte or nibble, by its position -/
  | num (n : Nat)
  /-- I -/
  | i
  /-- DT -/
  | dt
  /-- ST -/
  | st
  /-- K -/
  | k
  /-- B -/
  | b
  /-- [I] -/
  | memI
deriving DecidableEq, Repr

/-- One assembly line: `MNEMONIC operand, operand, ...` (R53). -/
structure Line where
  mnemonic : Mnemonic
  operands : List Operand
deriving DecidableEq, Repr

/-- A register operand names one of V0..VF. -/
def regOk (r : Nat) : Bool := decide (r < 16)
/-- An addr operand is 0..0xFFF. -/
def addrOk (a : Nat) : Bool := decide (a < 4096)
/-- A byte operand is 0..0xFF. -/
def byteOk (b : Nat) : Bool := decide (b < 256)
/-- A nibble operand is 0..0xF. -/
def nibbleOk (n : Nat) : Bool := decide (n < 16)

/-- A line is well formed when its operands have a form R46 and R53 list for its mnemonic and each lies in
its field's range: "A number out of its field's range is an assembly error; it is not truncated." -/
def Line.wf (l : Line) : Bool :=
  match l.mnemonic, l.operands with
  | .cls, [] => true
  | .ret, [] => true
  | .jp, [.num a] => addrOk a
  | .jp, [.v r, .num a] => r == 0 && addrOk a
  | .call, [.num a] => addrOk a
  | .se, [.v x, .num b] => regOk x && byteOk b
  | .se, [.v x, .v y] => regOk x && regOk y
  | .sne, [.v x, .num b] => regOk x && byteOk b
  | .sne, [.v x, .v y] => regOk x && regOk y
  | .ld, [.v x, .num b] => regOk x && byteOk b
  | .ld, [.v x, .v y] => regOk x && regOk y
  | .ld, [.i, .num a] => addrOk a
  | .ld, [.v x, .dt] => regOk x
  | .ld, [.v x, .k] => regOk x
  | .ld, [.dt, .v x] => regOk x
  | .ld, [.st, .v x] => regOk x
  | .ld, [.i, .v x] => regOk x
  | .ld, [.b, .v x] => regOk x
  | .ld, [.memI, .v x] => regOk x
  | .ld, [.v x, .memI] => regOk x
  | .add, [.v x, .num b] => regOk x && byteOk b
  | .add, [.v x, .v y] => regOk x && regOk y
  | .add, [.i, .v x] => regOk x
  | .or, [.v x, .v y] => regOk x && regOk y
  | .and, [.v x, .v y] => regOk x && regOk y
  | .xor, [.v x, .v y] => regOk x && regOk y
  | .sub, [.v x, .v y] => regOk x && regOk y
  | .shr, [.v x] => regOk x
  | .shr, [.v x, .v y] => regOk x && regOk y
  | .subn, [.v x, .v y] => regOk x && regOk y
  | .shl, [.v x] => regOk x
  | .shl, [.v x, .v y] => regOk x && regOk y
  | .rnd, [.v x, .num b] => regOk x && byteOk b
  | .drw, [.v x, .v y, .num n] => regOk x && regOk y && nibbleOk n
  | .skp, [.v x] => regOk x
  | .sknp, [.v x] => regOk x
  | _, _ => false

end Sys2Proof
end

