-- ==== Sys2Proof/Decode.lean ====
section
/-! DEFINITION. The instruction decoder, the encoder, the host's view of the decoder and the assembler
(spec/30_encoding.md R42 to R49, R53, R54). -/

namespace Sys2Proof

/-! ## The fields of a word (R43) -/

/-- The category c, w[15:12]. -/
def fieldC (w : Word) : Nibble := w.extractLsb' 12 4
/-- The field x, w[11:8]. -/
def fieldX (w : Word) : RegIx := w.extractLsb' 8 4
/-- The field y, w[7:4]. -/
def fieldY (w : Word) : RegIx := w.extractLsb' 4 4
/-- The field n, w[3:0]. -/
def fieldN (w : Word) : Nibble := w.extractLsb' 0 4
/-- The field nn, w[7:0]. -/
def fieldNN (w : Word) : Byte := w.extractLsb' 0 8
/-- The field nnn, w[11:0]. -/
def fieldNNN (w : Word) : Addr12 := w.extractLsb' 0 12

/-! ## The decoder (R45) -/

/-- What the decoder makes of any word, with no judgement of it (R45). -/
structure Descriptor where
  category : Nibble
  /-- the low byte for categories 0, E and F, the low nibble for category 8, none for the others -/
  sub      : Option Byte
  x        : RegIx
  y        : RegIx
  n        : Nibble
  nn       : Byte
  nnn      : Addr12
deriving DecidableEq, Repr

/-- The sub-opcode of R45. -/
def subOpcode (w : Word) : Option Byte :=
  if fieldC w = 0x0 ∨ fieldC w = 0xE ∨ fieldC w = 0xF then some (fieldNN w)
  else if fieldC w = 0x8 then some ((fieldN w).setWidth 8)
  else none

/-- The decoder of R45: a pure function that never fails. -/
def describe (w : Word) : Descriptor :=
  { category := fieldC w, sub := subOpcode w, x := fieldX w, y := fieldY w, n := fieldN w,
    nn := fieldNN w, nnn := fieldNNN w }

/-- Why a word selects no instruction, by the category of R47, or why bytes hold no word. -/
inductive Rejection where
  /-- fewer than two bytes -/
  | truncated
  /-- 0nnn other than 00E0 and 00EE (R47, R48) -/
  | invalid0
  /-- 5xyn with n other than 0 (R47) -/
  | invalid5
  /-- 8xyn with n in 8, 9, A, B, C, D, F (R47, R88) -/
  | invalid8
  /-- 9xyn with n other than 0 (R47) -/
  | invalid9
  /-- Exnn with nn other than 9E and A1 (R47) -/
  | invalidE
  /-- Fxnn with nn in no row of R46 (R47) -/
  | invalidF
deriving DecidableEq, Repr

/-- The category-0 words of R46: the whole word is fixed, so the field x must be 0 as well. -/
def recognise0 (d : Descriptor) : Except Rejection Instr :=
  match d.nnn with
  | 0x0E0 => .ok .cls
  | 0x0EE => .ok .ret
  | _ => .error .invalid0

/-- The category-8 words of R46, by their low nibble. -/
def recognise8 (d : Descriptor) : Except Rejection Instr :=
  match d.n with
  | 0x0 => .ok (.ldVxVy d.x d.y)
  | 0x1 => .ok (.orVxVy d.x d.y)
  | 0x2 => .ok (.andVxVy d.x d.y)
  | 0x3 => .ok (.xorVxVy d.x d.y)
  | 0x4 => .ok (.addVxVy d.x d.y)
  | 0x5 => .ok (.subVxVy d.x d.y)
  | 0x6 => .ok (.shrVxVy d.x d.y)
  | 0x7 => .ok (.subnVxVy d.x d.y)
  | 0xE => .ok (.shlVxVy d.x d.y)
  | _ => .error .invalid8

/-- The category-E words of R46, by their low byte. -/
def recogniseE (d : Descriptor) : Except Rejection Instr :=
  match d.nn with
  | 0x9E => .ok (.skpVx d.x)
  | 0xA1 => .ok (.sknpVx d.x)
  | _ => .error .invalidE

/-- The category-F words of R46, by their low byte. -/
def recogniseF (d : Descriptor) : Except Rejection Instr :=
  match d.nn with
  | 0x07 => .ok (.ldVxDt d.x)
  | 0x0A => .ok (.ldVxK d.x)
  | 0x15 => .ok (.ldDtVx d.x)
  | 0x18 => .ok (.ldStVx d.x)
  | 0x1E => .ok (.addIVx d.x)
  | 0x29 => .ok (.ldIVx d.x)
  | 0x33 => .ok (.ldBVx d.x)
  | 0x55 => .ok (.ldMemVx d.x)
  | 0x65 => .ok (.ldVxMem d.x)
  | _ => .error .invalidF

/-- Which instruction a descriptor selects, exactly as the table of R46 says. -/
def recognise (d : Descriptor) : Except Rejection Instr :=
  match d.category with
  | 0x0 => recognise0 d
  | 0x1 => .ok (.jpAddr d.nnn)
  | 0x2 => .ok (.callAddr d.nnn)
  | 0x3 => .ok (.seVxByte d.x d.nn)
  | 0x4 => .ok (.sneVxByte d.x d.nn)
  | 0x5 => if d.n = 0 then .ok (.seVxVy d.x d.y) else .error .invalid5
  | 0x6 => .ok (.ldVxByte d.x d.nn)
  | 0x7 => .ok (.addVxByte d.x d.nn)
  | 0x8 => recognise8 d
  | 0x9 => if d.n = 0 then .ok (.sneVxVy d.x d.y) else .error .invalid9
  | 0xA => .ok (.ldIAddr d.nnn)
  | 0xB => .ok (.jpV0Addr d.nnn)
  | 0xC => .ok (.rndVxByte d.x d.nn)
  | 0xD => .ok (.drwVxVyNibble d.x d.y d.n)
  | 0xE => recogniseE d
  | _ => recogniseF d

/-- The instruction a word selects, or why it selects none. -/
def decodeWord (w : Word) : Except Rejection Instr := recognise (describe w)

/-- The word whose bits 15..8 are hi and bits 7..0 are lo (R31). -/
def joinBytes (hi lo : Byte) : Word := hi ++ lo

/-- Bits 15..8 of a word: the byte at the lower address (R31). -/
def highByte (w : Word) : Byte := w.extractLsb' 8 8
/-- Bits 7..0 of a word: the byte at the higher address (R31). -/
def lowByte (w : Word) : Byte := w.extractLsb' 0 8

/-- The decoder over any bytes: the first instruction and the bytes after it (R42). -/
def decodeBytes : List Byte → Except Rejection (Instr × List Byte)
  | hi :: lo :: rest =>
    match decodeWord (joinBytes hi lo) with
    | .ok i => .ok (i, rest)
    | .error e => .error e
  | _ => .error .truncated

/-- The instruction of the opcode-table word w, as the decoder reads its bytes. The table's word is 16
bits with bit 0 its least significant, stored big-endian (R31). -/
def decodeTableWord (_nbits w : Nat) : Option Instr :=
  match decodeBytes [highByte (BitVec.ofNat 16 w), lowByte (BitVec.ofNat 16 w)] with
  | .ok (i, _) => some i
  | .error _ => none

/-! ## The encoder: the six formats of R44 and the table of R46 -/

/-- Format A: `cccc aaaa aaaa aaaa`. -/
def formatA (c : Nibble) (nnn : Addr12) : Word := c ++ nnn
/-- Format XB, and format X with its fixed sub-opcode byte: `cccc xxxx bbbb bbbb`. -/
def formatXB (c : Nibble) (x : RegIx) (nn : Byte) : Word := c ++ x ++ nn
/-- Format XYN, and format XY with its fixed sub-opcode nibble: `cccc xxxx yyyy nnnn`. -/
def formatXYN (c : Nibble) (x y : RegIx) (n : Nibble) : Word := c ++ x ++ y ++ n

/-- The word of an instruction (R44, R46). -/
def encode : Instr → Word
  | .cls => 0x00E0
  | .ret => 0x00EE
  | .jpAddr nnn => formatA 0x1 nnn
  | .callAddr nnn => formatA 0x2 nnn
  | .seVxByte x nn => formatXB 0x3 x nn
  | .sneVxByte x nn => formatXB 0x4 x nn
  | .seVxVy x y => formatXYN 0x5 x y 0x0
  | .ldVxByte x nn => formatXB 0x6 x nn
  | .addVxByte x nn => formatXB 0x7 x nn
  | .ldVxVy x y => formatXYN 0x8 x y 0x0
  | .orVxVy x y => formatXYN 0x8 x y 0x1
  | .andVxVy x y => formatXYN 0x8 x y 0x2
  | .xorVxVy x y => formatXYN 0x8 x y 0x3
  | .addVxVy x y => formatXYN 0x8 x y 0x4
  | .subVxVy x y => formatXYN 0x8 x y 0x5
  | .shrVxVy x y => formatXYN 0x8 x y 0x6
  | .subnVxVy x y => formatXYN 0x8 x y 0x7
  | .shlVxVy x y => formatXYN 0x8 x y 0xE
  | .sneVxVy x y => formatXYN 0x9 x y 0x0
  | .ldIAddr nnn => formatA 0xA nnn
  | .jpV0Addr nnn => formatA 0xB nnn
  | .rndVxByte x nn => formatXB 0xC x nn
  | .drwVxVyNibble x y n => formatXYN 0xD x y n
  | .skpVx x => formatXB 0xE x 0x9E
  | .sknpVx x => formatXB 0xE x 0xA1
  | .ldVxDt x => formatXB 0xF x 0x07
  | .ldVxK x => formatXB 0xF x 0x0A
  | .ldDtVx x => formatXB 0xF x 0x15
  | .ldStVx x => formatXB 0xF x 0x18
  | .addIVx x => formatXB 0xF x 0x1E
  | .ldIVx x => formatXB 0xF x 0x29
  | .ldBVx x => formatXB 0xF x 0x33
  | .ldMemVx x => formatXB 0xF x 0x55
  | .ldVxMem x => formatXB 0xF x 0x65

/-- The two bytes of an instruction in the order memory holds them (R31). -/
def encodeBytes (i : Instr) : List Byte := [highByte (encode i), lowByte (encode i)]

/-! ## The assembler (R53, R54) -/

/-- A register operand's field, or none when it names no register. -/
def asmReg (r : Nat) : Option RegIx := if regOk r then some (BitVec.ofNat 4 r) else none
/-- An addr operand's field, or none out of range. -/
def asmAddr (a : Nat) : Option Addr12 := if addrOk a then some (BitVec.ofNat 12 a) else none
/-- A byte operand's field, or none out of range. -/
def asmByte (b : Nat) : Option Byte := if byteOk b then some (BitVec.ofNat 8 b) else none
/-- A nibble operand's field, or none out of range. -/
def asmNibble (n : Nat) : Option Nibble := if nibbleOk n then some (BitVec.ofNat 4 n) else none

/-- An instruction from one checked operand. -/
def asm1 {α : Type} (f : α → Instr) (a : Option α) : Option Instr := a.map f
/-- An instruction from two checked operands. -/
def asm2 {α β : Type} (f : α → β → Instr) (a : Option α) (b : Option β) : Option Instr :=
  a.bind fun x => b.map (f x)

/-- The instruction a line assembles to, or none for an assembly error (R53). `SHR Vx` and `SHL Vx` with
one operand encode y = 0. -/
def assemble (l : Line) : Option Instr :=
  match l.mnemonic, l.operands with
  | .cls, [] => some .cls
  | .ret, [] => some .ret
  | .jp, [.num a] => asm1 .jpAddr (asmAddr a)
  | .jp, [.v r, .num a] => if r = 0 then asm1 .jpV0Addr (asmAddr a) else none
  | .call, [.num a] => asm1 .callAddr (asmAddr a)
  | .se, [.v x, .num b] => asm2 .seVxByte (asmReg x) (asmByte b)
  | .se, [.v x, .v y] => asm2 .seVxVy (asmReg x) (asmReg y)
  | .sne, [.v x, .num b] => asm2 .sneVxByte (asmReg x) (asmByte b)
  | .sne, [.v x, .v y] => asm2 .sneVxVy (asmReg x) (asmReg y)
  | .ld, [.v x, .num b] => asm2 .ldVxByte (asmReg x) (asmByte b)
  | .ld, [.v x, .v y] => asm2 .ldVxVy (asmReg x) (asmReg y)
  | .ld, [.i, .num a] => asm1 .ldIAddr (asmAddr a)
  | .ld, [.v x, .dt] => asm1 .ldVxDt (asmReg x)
  | .ld, [.v x, .k] => asm1 .ldVxK (asmReg x)
  | .ld, [.dt, .v x] => asm1 .ldDtVx (asmReg x)
  | .ld, [.st, .v x] => asm1 .ldStVx (asmReg x)
  | .ld, [.i, .v x] => asm1 .ldIVx (asmReg x)
  | .ld, [.b, .v x] => asm1 .ldBVx (asmReg x)
  | .ld, [.memI, .v x] => asm1 .ldMemVx (asmReg x)
  | .ld, [.v x, .memI] => asm1 .ldVxMem (asmReg x)
  | .add, [.v x, .num b] => asm2 .addVxByte (asmReg x) (asmByte b)
  | .add, [.v x, .v y] => asm2 .addVxVy (asmReg x) (asmReg y)
  | .add, [.i, .v x] => asm1 .addIVx (asmReg x)
  | .or, [.v x, .v y] => asm2 .orVxVy (asmReg x) (asmReg y)
  | .and, [.v x, .v y] => asm2 .andVxVy (asmReg x) (asmReg y)
  | .xor, [.v x, .v y] => asm2 .xorVxVy (asmReg x) (asmReg y)
  | .sub, [.v x, .v y] => asm2 .subVxVy (asmReg x) (asmReg y)
  | .shr, [.v x] => asm2 .shrVxVy (asmReg x) (some 0)
  | .shr, [.v x, .v y] => asm2 .shrVxVy (asmReg x) (asmReg y)
  | .subn, [.v x, .v y] => asm2 .subnVxVy (asmReg x) (asmReg y)
  | .shl, [.v x] => asm2 .shlVxVy (asmReg x) (some 0)
  | .shl, [.v x, .v y] => asm2 .shlVxVy (asmReg x) (asmReg y)
  | .rnd, [.v x, .num b] => asm2 .rndVxByte (asmReg x) (asmByte b)
  | .drw, [.v x, .v y, .num n] => (asmReg x).bind fun x => asm2 (.drwVxVyNibble x) (asmReg y) (asmNibble n)
  | .skp, [.v x] => asm1 .skpVx (asmReg x)
  | .sknp, [.v x] => asm1 .sknpVx (asmReg x)
  | _, _ => none

/-- The line an instruction is written as (R53). -/
def Instr.line : Instr → Line
  | .cls => ⟨.cls, []⟩
  | .ret => ⟨.ret, []⟩
  | .jpAddr nnn => ⟨.jp, [.num nnn.toNat]⟩
  | .callAddr nnn => ⟨.call, [.num nnn.toNat]⟩
  | .seVxByte x nn => ⟨.se, [.v x.toNat, .num nn.toNat]⟩
  | .sneVxByte x nn => ⟨.sne, [.v x.toNat, .num nn.toNat]⟩
  | .seVxVy x y => ⟨.se, [.v x.toNat, .v y.toNat]⟩
  | .ldVxByte x nn => ⟨.ld, [.v x.toNat, .num nn.toNat]⟩
  | .addVxByte x nn => ⟨.add, [.v x.toNat, .num nn.toNat]⟩
  | .ldVxVy x y => ⟨.ld, [.v x.toNat, .v y.toNat]⟩
  | .orVxVy x y => ⟨.or, [.v x.toNat, .v y.toNat]⟩
  | .andVxVy x y => ⟨.and, [.v x.toNat, .v y.toNat]⟩
  | .xorVxVy x y => ⟨.xor, [.v x.toNat, .v y.toNat]⟩
  | .addVxVy x y => ⟨.add, [.v x.toNat, .v y.toNat]⟩
  | .subVxVy x y => ⟨.sub, [.v x.toNat, .v y.toNat]⟩
  | .shrVxVy x y => ⟨.shr, [.v x.toNat, .v y.toNat]⟩
  | .subnVxVy x y => ⟨.subn, [.v x.toNat, .v y.toNat]⟩
  | .shlVxVy x y => ⟨.shl, [.v x.toNat, .v y.toNat]⟩
  | .sneVxVy x y => ⟨.sne, [.v x.toNat, .v y.toNat]⟩
  | .ldIAddr nnn => ⟨.ld, [.i, .num nnn.toNat]⟩
  | .jpV0Addr nnn => ⟨.jp, [.v 0, .num nnn.toNat]⟩
  | .rndVxByte x nn => ⟨.rnd, [.v x.toNat, .num nn.toNat]⟩
  | .drwVxVyNibble x y n => ⟨.drw, [.v x.toNat, .v y.toNat, .num n.toNat]⟩
  | .skpVx x => ⟨.skp, [.v x.toNat]⟩
  | .sknpVx x => ⟨.sknp, [.v x.toNat]⟩
  | .ldVxDt x => ⟨.ld, [.v x.toNat, .dt]⟩
  | .ldVxK x => ⟨.ld, [.v x.toNat, .k]⟩
  | .ldDtVx x => ⟨.ld, [.dt, .v x.toNat]⟩
  | .ldStVx x => ⟨.ld, [.st, .v x.toNat]⟩
  | .addIVx x => ⟨.add, [.i, .v x.toNat]⟩
  | .ldIVx x => ⟨.ld, [.i, .v x.toNat]⟩
  | .ldBVx x => ⟨.ld, [.b, .v x.toNat]⟩
  | .ldMemVx x => ⟨.ld, [.memI, .v x.toNat]⟩
  | .ldVxMem x => ⟨.ld, [.v x.toNat, .memI]⟩

end Sys2Proof
end

