-- ==== Sys2Proof/Config.lean ====
section
/-! DEFINITION. What the source leaves open: the two parameters of spec/00_scope.md R5, which the machine
takes as an argument (State holds them), with the spec's own value of each, and the free value of the random
input (spec/10_state.md R21). -/

namespace Sys2Proof

/-- The 80 bytes of the hexadecimal digits 0..F, five rows a glyph (R5, R28). -/
abbrev Font := Vector Byte 80

/-- The parameters of R5: no value of either is fixed by the source (log entries 1 and 2). -/
structure Params where
  /-- `I_WIDTH`, the storage width of I in bits -/
  iWidth : Nat
  /-- `FONT` -/
  font   : Font
deriving DecidableEq, Repr

/-- The one bound R5 sets: I can hold a value above 0xFFF. -/
abbrev Params.Ok (p : Params) : Prop := 13 ≤ p.iWidth

/-- The width of FAULT_ADDR, max(16, I_WIDTH) (R20). -/
def Params.faultAddrWidth (p : Params) : Nat := max 16 p.iWidth

/-- The bytes of the standard font (R28, decision D18; log entry 2). -/
def Config.fontBytes : List Byte :=
  [0xF0, 0x90, 0x90, 0x90, 0xF0] ++ [0x20, 0x60, 0x20, 0x20, 0x70] ++
  [0xF0, 0x10, 0xF0, 0x80, 0xF0] ++ [0xF0, 0x10, 0xF0, 0x10, 0xF0] ++
  [0x90, 0x90, 0xF0, 0x10, 0x10] ++ [0xF0, 0x80, 0xF0, 0x10, 0xF0] ++
  [0xF0, 0x80, 0xF0, 0x90, 0xF0] ++ [0xF0, 0x10, 0x20, 0x40, 0x40] ++
  [0xF0, 0x90, 0xF0, 0x90, 0xF0] ++ [0xF0, 0x90, 0xF0, 0x10, 0xF0] ++
  [0xF0, 0x90, 0xF0, 0x90, 0x90] ++ [0xE0, 0x90, 0xE0, 0x90, 0xE0] ++
  [0xF0, 0x80, 0x80, 0x80, 0xF0] ++ [0xE0, 0x90, 0x90, 0x90, 0xE0] ++
  [0xF0, 0x80, 0xF0, 0x80, 0xF0] ++ [0xF0, 0x80, 0xF0, 0x80, 0x80]

/-- The spec's value of `FONT` (R28, decision D18; log entry 2). -/
def Config.font : Font := ⟨Config.fontBytes.toArray, by decide⟩

/-- The spec's value of each parameter: `I_WIDTH` is 16 (R5, decisions D3 and D18; log entry 1). -/
def Config.params : Params := { iWidth := 16, font := Config.font }

/-- The random byte of the k-th draw when the host has supplied none: a free value, under no law
(R21, decision D20; log entry 3). -/
opaque Config.randomByte : Nat → Byte

end Sys2Proof
end

