-- ==== Sys2Proof/Machine/State.lean ====
section
/-! DEFINITION. Everything the core holds, as plain data (spec/10_state.md R7 to R22), its state after
reset (spec/70_reset_and_hazards.md R122), and the reasons a step could stop. -/

namespace Sys2Proof.Machine

/-- The 4096-byte memory as the cells that differ from their reset contents, by rising address (R14). Its
reset contents hold FONT, so what reads it takes the font. -/
abbrev Memory := List Host.Cell

/-- The 64 by 32 framebuffer, bit y*64 + x holding FB[y][x] (R15, and R117 for the bit order). -/
abbrev Framebuffer := BitVec 2048

/-- One bit per key, bit k for key k (R16, R19). -/
abbrev Keys := BitVec 16

/-- FAULT_KIND (R20, R104). -/
inductive FaultKind where
  | none
  | invalidOpcode
  | stackOverflow
  | stackUnderflow
  | outOfBoundsMemoryAccess
deriving DecidableEq, Repr

/-- The fault status of R20, one field per row of its table. -/
structure FaultStatus where
  /-- HALTED -/
  halted    : Bool
  /-- FAULT_KIND -/
  kind      : FaultKind
  /-- FAULT_PC -/
  pc        : Word
  /-- FAULT_WORD_VALID -/
  wordValid : Bool
  /-- FAULT_WORD -/
  word      : Word
  /-- FAULT_ADDR_VALID -/
  addrValid : Bool
  /-- FAULT_ADDR, a value of max(16, I_WIDTH) bits (State.Inv.addr_lt) -/
  addr      : Nat
deriving DecidableEq, Repr

/-- The fault status after RESET or RESUME: every field 0 (R20, R110, R122). -/
def FaultStatus.clear : FaultStatus :=
  { halted := false, kind := .none, pc := 0, wordValid := false, word := 0, addrValid := false, addr := 0 }

/-- A command of the host at one of the input ports of R24. -/
inductive Command where
  /-- CYCLE: execute one cycle (R50) -/
  | cycle
  /-- RESET (R122) -/
  | reset
  /-- LOAD(bytes) (R40) -/
  | load (bytes : List Byte)
  /-- TICK (R114) -/
  | tick
  /-- a new level of KEYPAD[15:0] (R16) -/
  | keypad (keys : Keys)
  /-- one more byte of the random input RND[7:0] (R21) -/
  | random (b : Byte)
  /-- RESUME(pc) (R110) -/
  | resume (pc : Word)
deriving DecidableEq, Repr

/-- The state of the core, the parameters it takes as an argument, and three fields of the model's own: rnd
with draws, and loadable, and inbox. -/
structure State where
  /-- I_WIDTH and FONT, which no step changes (R5) -/
  params   : Params
  /-- V[0]..V[F] (R7) -/
  v        : Vector Byte 16
  /-- I, a value of I_WIDTH bits (R9, State.Inv.i_lt) -/
  i        : Nat
  /-- PC (R10) -/
  pc       : Word
  /-- SP, the number of occupied stack slots, 0..16 (R11) -/
  sp       : Fin 17
  /-- STACK[0]..STACK[15] (R12) -/
  stack    : Vector Word 16
  /-- DT (R13) -/
  dt       : Byte
  /-- ST (R13) -/
  st       : Byte
  /-- MEM (R14) -/
  mem      : Memory
  /-- FB (R15) -/
  fb       : Framebuffer
  /-- KEYPAD, the input level the host presents (R16, R17) -/
  keypad   : Keys
  /-- WAIT (R18) -/
  wait     : Bool
  /-- WAIT_X (R18) -/
  waitX    : RegIx
  /-- KEY_PREV (R19) -/
  keyPrev  : Keys
  /-- the fault status (R20) -/
  fault    : FaultStatus
  /-- the random bytes the host has supplied and no RND has consumed, first one first (R21) -/
  rnd      : List Byte
  /-- the model's own: how many draws RND has made; the free value of a draw is read at this number (R21) -/
  draws    : Nat
  /-- the model's own: a LOAD is still accepted, that is, no LOAD has returned OK and no cycle has run
  since RESET (R41, R124) -/
  loadable : Bool
  /-- the model's own: the host's commands to come, first one first; the host issues CYCLE when none is left (R24, R115) -/
  inbox    : List Command
deriving DecidableEq, Repr

/-- Why a step would stop the model. No behaviour of this core does: its faults are next states with the
fault status written (R105), and every other rule gives an effect, so there is no constructor. -/
inductive Fault where
deriving DecidableEq, Repr

/-- Why the model would give an instruction no meaning. -/
inductive Refusal where
  /-- raised by an arm of exec whose instruction has no meaning yet; safe. No arm raises it. -/
  | notModelled (mnemonic : String)
deriving DecidableEq, Repr

/-- The state after RESET of the core with the parameters p, with the keypad unpressed and nothing supplied by
the host yet (R5, R122, R123). -/
def State.resetWith (p : Params) : State :=
  { params := p, v := Vector.replicate 16 0, i := 0, pc := 0x200, sp := 0, stack := Vector.replicate 16 0,
    dt := 0, st := 0, mem := [], fb := 0, keypad := 0, wait := false, waitX := 0, keyPrev := 0,
    fault := FaultStatus.clear, rnd := [], draws := 0, loadable := true, inbox := [] }

/-- The state after RESET of the core with the spec's value of each parameter (R5, R122). -/
def State.reset : State := State.resetWith Config.params

end Sys2Proof.Machine
end

