-- ==== Sys2Proof/Machine/Ops.lean ====
section
/-! DEFINITION. The named operations over memory, registers, the stack and the random input, taking a
fault and leaving the halted state (spec/20_memory.md, spec/41_control.md section 1,
spec/60_exceptions.md sections 2 and 4). -/

namespace Sys2Proof.Machine

/-! ## Memory -/

/-- What an address no store has changed reads as: the font at 0x050..0x09F, 0x00 elsewhere (R14, R26, R28). -/
def Memory.resetByte (f : Font) (a : Nat) : Byte :=
  if h : 0x050 ≤ a ∧ a < 0x0A0 then f[a - 0x050]'(by omega) else 0

/-- The canonical form of a memory: addresses strictly rising and inside the address space, and no cell
equal to what its address reads as when unlisted. -/
abbrev Memory.wf (f : Font) (m : Memory) : Prop :=
  List.Pairwise (fun c d : Host.Cell => c.1 < d.1) m ∧ ∀ c ∈ m, c.1 < 4096 ∧ c.2 ≠ Memory.resetByte f c.1

/-- The byte at address a (R14, R36). -/
def Memory.read (f : Font) (m : Memory) (a : Nat) : Byte :=
  match m with
  | [] => Memory.resetByte f a
  | c :: rest => if c.1 = a then c.2 else Memory.read f rest a

/-- The cell that stores b at a, or no cell when a reads as b unlisted. -/
def Memory.cell (f : Font) (a : Nat) (b : Byte) : Memory := if b = Memory.resetByte f a then [] else [(a, b)]

/-- The memory with byte b at address a, in canonical form (R14, R36). -/
def Memory.write (f : Font) (m : Memory) (a : Nat) (b : Byte) : Memory :=
  match m with
  | [] => Memory.cell f a b
  | c :: rest =>
    if a < c.1 then Memory.cell f a b ++ c :: rest
    else if a = c.1 then Memory.cell f a b ++ rest
    else c :: Memory.write f rest a b

/-- MEM[a] (R14). -/
def State.byte (s : State) (a : Nat) : Byte := Memory.read s.params.font s.mem a

/-- The memory of s is in canonical form. -/
abbrev State.memWf (s : State) : Prop := Memory.wf s.params.font s.mem

/-! ## The address translator (R29, R30) -/

/-- What a fault reports beside the instruction: its kind and, for a memory access, the address (R104). -/
inductive FaultCause where
  | invalidOpcode
  | stackOverflow
  | stackUnderflow
  | outOfBounds (addr : Nat)
deriving DecidableEq, Repr

/-- FAULT_KIND for a cause (R104). -/
def FaultCause.kind : FaultCause → FaultKind
  | .invalidOpcode => .invalidOpcode
  | .stackOverflow => .stackOverflow
  | .stackUnderflow => .stackUnderflow
  | .outOfBounds _ => .outOfBoundsMemoryAccess

/-- The first out-of-bounds address, for OutOfBoundsMemoryAccess alone (R105). -/
def FaultCause.addr : FaultCause → Option Nat
  | .outOfBounds a => some a
  | _ => none

/-- The numeric code of a fault kind (R20, R104). -/
def FaultKind.code : FaultKind → BitVec 3
  | .none => 0
  | .invalidOpcode => 1
  | .stackOverflow => 2
  | .stackUnderflow => 3
  | .outOfBoundsMemoryAccess => 4

/-- Translate(a): the identity below 4096, a fault from there on; a is exact (R29, R30). -/
def translate (a : Nat) : Except FaultCause Nat :=
  if a < 4096 then .ok a else .error (.outOfBounds a)

/-- MemWrite of each byte of a list, at a, a + 1, ..., each checked when it is made; an access that fails
ends the sequence and the bytes before it stay written (R32, R33). -/
def storeBytes (f : Font) (m : Memory) (a : Nat) : List Byte → Memory × Option FaultCause
  | [] => (m, none)
  | b :: bs =>
    match translate a with
    | .ok a' => storeBytes f (Memory.write f m a' b) (a + 1) bs
    | .error c => (m, some c)

/-- MemRead into V[k], V[k+1], ..., count of them, from a, a + 1, ...; an access that fails ends the
sequence and the registers before it stay loaded (R32, R33, R95). -/
def loadRegs (f : Font) (m : Memory) (v : Vector Byte 16) (a k : Nat) : Nat → Vector Byte 16 × Option FaultCause
  | 0 => (v, none)
  | count + 1 =>
    match translate a with
    | .ok a' => loadRegs f m (v.setIfInBounds k (Memory.read f m a')) (a + 1) (k + 1) count
    | .error c => (v, some c)

/-- Fetch(pc): the big-endian word at PC, both bytes through Translate (R31, R35). -/
def fetch (s : State) : Except FaultCause Word :=
  match translate s.pc.toNat with
  | .error c => .error c
  | .ok a0 =>
    match translate (s.pc.toNat + 1) with
    | .error c => .error c
    | .ok a1 => .ok (joinBytes (s.byte a0) (s.byte a1))

/-! ## Registers and the program counter -/

/-- V[x] (R7). -/
def State.reg (s : State) (x : RegIx) : Byte := s.v[x.toNat]'x.isLt

/-- V[x] <- b (R7). -/
def State.setReg (s : State) (x : RegIx) (b : Byte) : State := { s with v := s.v.set x.toNat b x.isLt }

/-- PC <- PC + n, for n = 2 or 4 (R51, R52). -/
def State.advance (s : State) (n : Word) : State := { s with pc := s.pc + n }

/-- The end of a skip instruction: PC + 4 when the condition holds, else PC + 2 (R51). -/
def State.skipIf (s : State) (c : Bool) : State := if c then s.advance 4 else s.advance 2

/-! ## The stack controller (R63, R64) -/

/-- Push(r): STACK[SP] <- r, then SP + 1; StackOverflow with nothing written when SP is 16 (R63). -/
def push (r : Word) (s : State) : Except FaultCause State :=
  if h : s.sp.val < 16 then
    .ok { s with stack := s.stack.set s.sp.val r h, sp := ⟨s.sp.val + 1, Nat.succ_lt_succ h⟩ }
  else .error .stackOverflow

/-- Pop(): STACK[SP-1] and SP - 1; StackUnderflow with nothing written when SP is 0 (R64). -/
def pop (s : State) : Except FaultCause (Word × State) :=
  if h : s.sp.val = 0 then .error .stackUnderflow
  else .ok (s.stack[s.sp.val - 1]'(by omega), { s with sp := ⟨s.sp.val - 1, by omega⟩ })

/-! ## The random input (R21) -/

/-- The byte the next draw gives: the host's next byte or, when it has supplied none, the free value of
this draw (R21). -/
def State.nextRandom (s : State) : Byte := s.rnd.headD (Config.randomByte s.draws)

/-- One draw consumes exactly one byte (R21). -/
def State.consumeRandom (s : State) : State := { s with rnd := s.rnd.tail, draws := s.draws + 1 }

/-! ## Taking a fault and leaving the halted state -/

/-- Fault entry: HALTED is set and the fault status is written; nothing else changes, so PC keeps the
failing instruction's address. word is none for a fetch fault (R105). -/
def takeFault (c : FaultCause) (word : Option Word) (s : State) : State :=
  { s with fault :=
      { halted := true, kind := c.kind, pc := s.pc,
        wordValid := word.isSome, word := word.getD 0,
        addrValid := c.addr.isSome, addr := c.addr.getD 0 } }

/-- `raise Fault(kind, info)` in an instruction: fault entry with that instruction's word (R105). -/
def raise (c : FaultCause) (i : Instr) (s : State) : Host.Outcome State Fault Refusal :=
  .next (takeFault c (some (encode i)) s)

/-- The end of an instruction whose accesses may have failed: fault entry, or PC + 2 (R51, R105). -/
def finish (c : Option FaultCause) (i : Instr) (s : State) : Host.Outcome State Fault Refusal :=
  match c with
  | none => .next (s.advance 2)
  | some c => raise c i s

/-- RESUME(pc): refused with no change unless HALTED is 1; else the fault status is cleared and PC is set (R110). -/
def resume (pc : Word) (s : State) : State :=
  if s.fault.halted then { s with fault := FaultStatus.clear, pc := pc } else s

end Sys2Proof.Machine
end

