-- ==== Sys2Proof/Machine/Flags.lean ====
section
/-! DEFINITION. The flag computations of VF (spec/10_state.md R8, spec/42_alu.md) and the one order in
which a flag-writing instruction writes: its result first, VF last. -/

namespace Sys2Proof.Machine

/-- The carry of 8xy4: the 9-bit sum exceeds 255 (R83). -/
def carryFlag (a b : Byte) : Bool := decide (a.toNat + b.toNat > 255)

/-- The flag of 8xy5 and 8xy7: the minuend is strictly greater (R84, R86). -/
def greaterFlag (a b : Byte) : Bool := decide (a.toNat > b.toNat)

/-- The flag of 8xy6: bit 0 before the shift (R85). -/
def lowBitFlag (a : Byte) : Bool := a.getLsbD 0

/-- The flag of 8xyE: bit 7 before the shift (R87). -/
def highBitFlag (a : Byte) : Bool := a.getLsbD 7

/-- VF <- bit(c) (R8). -/
def State.setFlag (s : State) (c : Bool) : State := s.setReg flagIx (bitByte c)

/-- V[x] <- r, then VF <- bit(c) last of all, then PC + 2 (R8, R76). -/
def State.writeFlagged (s : State) (x : RegIx) (r : Byte) (c : Bool) : State :=
  ((s.setReg x r).setFlag c).advance 2

end Sys2Proof.Machine
end

