-- ==== Sys2Proof/Machine/Operands.lean ====
section
/-! DEFINITION. The operand forms of the instructions (spec/30_encoding.md R43, R49): the registers and
immediates a field names, the addresses computed from I, and the values an instruction derives from a
register. -/

namespace Sys2Proof.Machine

/-- The base of a data access: I as an exact integer, to which the offset k is added (R30). -/
abbrev State.iAddr (s : State) : Nat := s.i

/-- The number a register's value names in a 16-entry table, or none above 0xF (R49). -/
def tableIndex (b : Byte) : Option Nat := if b.toNat > 15 then none else some b.toNat

/-- KEY[k] (R16, R17). -/
def State.key (s : State) (k : Nat) : Bool := s.keypad.getLsbD k

/-- The address of the glyph of digit d (R92). -/
def fontAddr (d : Nat) : Nat := 0x050 + 5 * d

/-- The hundreds, tens and units of a byte, in the order LD B stores them (R93). -/
def bcdDigits (b : Byte) : List Byte :=
  [BitVec.ofNat 8 (b.toNat / 100), BitVec.ofNat 8 (b.toNat / 10 % 10), BitVec.ofNat 8 (b.toNat % 10)]

/-- V[0], ..., V[x], the bytes LD [I], Vx stores (R94). -/
def State.regsUpTo (s : State) (x : RegIx) : List Byte := s.v.toList.take (x.toNat + 1)

/-- A jump target as PC holds it: the 12-bit field, zero-extended (R66, R68). -/
def target (nnn : Addr12) : Word := nnn.setWidth 16

/-- The target of JP V0, addr: the exact sum, neither wrapped nor masked (R74). -/
def indexedTarget (nnn : Addr12) (v0 : Byte) : Word := BitVec.ofNat 16 (nnn.toNat + v0.toNat)

/-- The keys newly pressed since the last sample: KEY AND NOT KEY_PREV (R99). -/
def State.newKeys (s : State) : Keys := s.keypad &&& ~~~s.keyPrev

/-- The lowest k with e[k] = 1, for an e other than 0 (R99). -/
def lowestKey (e : Keys) : Nat := (List.range 16).findIdx fun k => e.getLsbD k

end Sys2Proof.Machine
end

