-- ==== Sys2Proof/Machine/Alu.lean ====
section
/-! DEFINITION. Register loads, the ALU group and RND (spec/42_alu.md R75 to R89). Every operand is read
before any register is written (R76). -/

namespace Sys2Proof.Machine

/-- 6xnn: V[x] <- nn (R77). -/
def execLdVxByte (x : RegIx) (nn : Byte) (s : State) : Host.Outcome State Fault Refusal :=
  .next ((s.setReg x nn).advance 2)

/-- 7xnn: V[x] <- trunc_8(V[x] + nn), no flag (R78). -/
def execAddVxByte (x : RegIx) (nn : Byte) (s : State) : Host.Outcome State Fault Refusal :=
  .next ((s.setReg x (s.reg x + nn)).advance 2)

/-- 8xy0: V[x] <- V[y] (R79). -/
def execLdVxVy (x y : RegIx) (s : State) : Host.Outcome State Fault Refusal :=
  .next ((s.setReg x (s.reg y)).advance 2)

/-- 8xy1: V[x] <- V[x] OR V[y], no flag (R80). -/
def execOrVxVy (x y : RegIx) (s : State) : Host.Outcome State Fault Refusal :=
  .next ((s.setReg x (s.reg x ||| s.reg y)).advance 2)

/-- 8xy2: V[x] <- V[x] AND V[y], no flag (R81). -/
def execAndVxVy (x y : RegIx) (s : State) : Host.Outcome State Fault Refusal :=
  .next ((s.setReg x (s.reg x &&& s.reg y)).advance 2)

/-- 8xy3: V[x] <- V[x] XOR V[y], no flag (R82). -/
def execXorVxVy (x y : RegIx) (s : State) : Host.Outcome State Fault Refusal :=
  .next ((s.setReg x (s.reg x ^^^ s.reg y)).advance 2)

/-- 8xy4: V[x] <- trunc_8(V[x] + V[y]), VF <- carry (R83). -/
def execAddVxVy (x y : RegIx) (s : State) : Host.Outcome State Fault Refusal :=
  .next (s.writeFlagged x (s.reg x + s.reg y) (carryFlag (s.reg x) (s.reg y)))

/-- 8xy5: V[x] <- trunc_8(V[x] - V[y]), VF <- bit(V[x] > V[y]) (R84). -/
def execSubVxVy (x y : RegIx) (s : State) : Host.Outcome State Fault Refusal :=
  .next (s.writeFlagged x (s.reg x - s.reg y) (greaterFlag (s.reg x) (s.reg y)))

/-- 8xy6: V[x] <- V[x] >> 1, VF <- bit 0; y is ignored (R85). -/
def execShrVxVy (x _y : RegIx) (s : State) : Host.Outcome State Fault Refusal :=
  .next (s.writeFlagged x (s.reg x >>> 1) (lowBitFlag (s.reg x)))

/-- 8xy7: V[x] <- trunc_8(V[y] - V[x]), VF <- bit(V[y] > V[x]) (R86). -/
def execSubnVxVy (x y : RegIx) (s : State) : Host.Outcome State Fault Refusal :=
  .next (s.writeFlagged x (s.reg y - s.reg x) (greaterFlag (s.reg y) (s.reg x)))

/-- 8xyE: V[x] <- trunc_8(V[x] << 1), VF <- bit 7; y is ignored (R87). -/
def execShlVxVy (x _y : RegIx) (s : State) : Host.Outcome State Fault Refusal :=
  .next (s.writeFlagged x (s.reg x <<< 1) (highBitFlag (s.reg x)))

/-- Cxnn: one draw, V[x] <- draw AND nn (R89). -/
def execRndVxByte (x : RegIx) (nn : Byte) (s : State) : Host.Outcome State Fault Refusal :=
  .next ((s.consumeRandom.setReg x (s.nextRandom &&& nn)).advance 2)

end Sys2Proof.Machine
end

