-- ==== Sys2Proof/Machine/Control.lean ====
section
/-! DEFINITION. Control transfer (spec/41_control.md R63 to R74). No target has an alignment rule, and one
of 0x1000 or more is stored as it is and faults at the next fetch (R34, R52). -/

namespace Sys2Proof.Machine

/-- 00EE: PC <- Pop() (R65). -/
def execRet (s : State) : Host.Outcome State Fault Refusal :=
  match pop s with
  | .ok (r, t) => .next { t with pc := r }
  | .error c => raise c .ret s

/-- 1nnn: PC <- nnn (R66). -/
def execJpAddr (nnn : Addr12) (s : State) : Host.Outcome State Fault Refusal :=
  .next { s with pc := target nnn }

/-- 2nnn: Push(PC + 2), PC <- nnn (R68). -/
def execCallAddr (nnn : Addr12) (s : State) : Host.Outcome State Fault Refusal :=
  match push (s.pc + 2) s with
  | .ok t => .next { t with pc := target nnn }
  | .error c => raise c (.callAddr nnn) s

/-- 3xnn: skip if V[x] = nn (R70). -/
def execSeVxByte (x : RegIx) (nn : Byte) (s : State) : Host.Outcome State Fault Refusal :=
  .next (s.skipIf (s.reg x == nn))

/-- 4xnn: skip if V[x] differs from nn (R71). -/
def execSneVxByte (x : RegIx) (nn : Byte) (s : State) : Host.Outcome State Fault Refusal :=
  .next (s.skipIf (s.reg x != nn))

/-- 5xy0: skip if V[x] = V[y] (R72). -/
def execSeVxVy (x y : RegIx) (s : State) : Host.Outcome State Fault Refusal :=
  .next (s.skipIf (s.reg x == s.reg y))

/-- 9xy0: skip if V[x] differs from V[y] (R73). -/
def execSneVxVy (x y : RegIx) (s : State) : Host.Outcome State Fault Refusal :=
  .next (s.skipIf (s.reg x != s.reg y))

/-- Bnnn: PC <- nnn + V[0] (R74). -/
def execJpV0Addr (nnn : Addr12) (s : State) : Host.Outcome State Fault Refusal :=
  .next { s with pc := indexedTarget nnn (s.reg 0) }

end Sys2Proof.Machine
end

