-- ==== Sys2Proof/Machine/Display.lean ====
section
/-! DEFINITION. CLS, DRW, the pixel-draw engine and the collision detector (spec/40_display.md R55 to R62). -/

namespace Sys2Proof.Machine

/-- FB[py][px], for px < 64 and py < 32 (R15, R117). -/
def pixel (fb : Framebuffer) (px py : Nat) : Bool := fb.getLsbD (py * 64 + px)

/-- FB[py][px] <- FB[py][px] XOR 1 (R57). -/
def togglePixel (fb : Framebuffer) (px py : Nat) : Framebuffer := fb ^^^ BitVec.twoPow 2048 (py * 64 + px)

/-- What the draw engine works on: the framebuffer and the collision bit of the whole DRW (R58). -/
structure Canvas where
  fb  : Framebuffer
  col : Bool
deriving DecidableEq, Repr

/-- One sprite pixel of value 1 at the exact column px and row py: clipped outside the screen, else
XORed onto the cell, whose old value is the collision input (R56, R57, R58). -/
def Canvas.plot (d : Canvas) (px py : Nat) : Canvas :=
  if px < 64 ∧ py < 32 then { fb := togglePixel d.fb px py, col := d.col || pixel d.fb px py } else d

/-- One sprite row b with its bit 7 at column ox, at row py (R57). -/
def Canvas.drawRow (d : Canvas) (b : Byte) (ox py : Nat) : Canvas :=
  (List.range 8).foldl (fun d c => if b.getLsbD (7 - c) then d.plot (ox + c) py else d) d

/-- The remaining n sprite rows, read from a, a + 1, ... and drawn at py, py + 1, ...; every row is read
and bounds-checked, drawn or not, and one that fails ends the draw with the rows before it drawn (R59, R60, R61). -/
def Canvas.drawRows (f : Font) (m : Memory) (ox : Nat) (d : Canvas) (a py : Nat) : Nat → Canvas × Option FaultCause
  | 0 => (d, none)
  | n + 1 =>
    match translate a with
    | .ok a' => Canvas.drawRows f m ox (d.drawRow (Memory.read f m a') ox py) (a + 1) (py + 1) n
    | .error c => (d, some c)

/-- The whole draw of DRW Vx, Vy, n (R59). -/
def State.sprite (s : State) (x y : RegIx) (n : Nibble) : Canvas × Option FaultCause :=
  Canvas.drawRows s.params.font s.mem (s.reg x).toNat { fb := s.fb, col := false } s.iAddr (s.reg y).toNat n.toNat

/-- 00E0: every pixel 0 (R55). -/
def execCls (s : State) : Host.Outcome State Fault Refusal :=
  .next ({ s with fb := 0 }.advance 2)

/-- Dxyn: draw the sprite; VF <- col after the last row, and PC + 2; a row out of bounds leaves VF and PC
as they were (R59, R61). -/
def execDrwVxVyNibble (x y : RegIx) (n : Nibble) (s : State) : Host.Outcome State Fault Refusal :=
  match (s.sprite x y n).2 with
  | none => .next (({ s with fb := (s.sprite x y n).1.fb }.setFlag (s.sprite x y n).1.col).advance 2)
  | some c => raise c (.drwVxVyNibble x y n) { s with fb := (s.sprite x y n).1.fb }

end Sys2Proof.Machine
end

