-- ==== Sys2Proof/Machine/IndexMemory.lean ====
section
/-! DEFINITION. The address register and the memory transfers (spec/43_index_memory.md R90 to R96). -/

namespace Sys2Proof.Machine

/-- Annn: I <- nnn (R90). -/
def execLdIAddr (nnn : Addr12) (s : State) : Host.Outcome State Fault Refusal :=
  .next ({ s with i := nnn.toNat }.advance 2)

/-- Fx1E: I <- trunc(I + V[x]) to I_WIDTH bits, no flag and no fault (R91). -/
def execAddIVx (x : RegIx) (s : State) : Host.Outcome State Fault Refusal :=
  .next ({ s with i := (s.i + (s.reg x).toNat) % 2 ^ s.params.iWidth }.advance 2)

/-- Fx29: I <- the glyph of the digit in V[x]; InvalidOpcode above 0xF (R92). -/
def execLdIVx (x : RegIx) (s : State) : Host.Outcome State Fault Refusal :=
  match tableIndex (s.reg x) with
  | none => raise .invalidOpcode (.ldIVx x) s
  | some d => .next ({ s with i := fontAddr d }.advance 2)

/-- Fx33: the three decimal digits of V[x] to I, I + 1, I + 2 (R93). -/
def execLdBVx (x : RegIx) (s : State) : Host.Outcome State Fault Refusal :=
  finish (storeBytes s.params.font s.mem s.iAddr (bcdDigits (s.reg x))).2 (.ldBVx x)
    { s with mem := (storeBytes s.params.font s.mem s.iAddr (bcdDigits (s.reg x))).1 }

/-- Fx55: V[0]..V[x] to I..I + x; I is unchanged (R94). -/
def execLdMemVx (x : RegIx) (s : State) : Host.Outcome State Fault Refusal :=
  finish (storeBytes s.params.font s.mem s.iAddr (s.regsUpTo x)).2 (.ldMemVx x)
    { s with mem := (storeBytes s.params.font s.mem s.iAddr (s.regsUpTo x)).1 }

/-- Fx65: V[0]..V[x] from I..I + x; I is unchanged (R95). -/
def execLdVxMem (x : RegIx) (s : State) : Host.Outcome State Fault Refusal :=
  finish (loadRegs s.params.font s.mem s.v s.iAddr 0 (x.toNat + 1)).2 (.ldVxMem x)
    { s with v := (loadRegs s.params.font s.mem s.v s.iAddr 0 (x.toNat + 1)).1 }

end Sys2Proof.Machine
end

