-- ==== Sys2Proof/Machine/KeysTimers.lean ====
section
/-! DEFINITION. The keypad and timer instructions (spec/44_keys_timers.md R97 to R103). -/

namespace Sys2Proof.Machine

/-- Ex9E: skip if the key numbered V[x] is pressed; InvalidOpcode above 15 (R97). -/
def execSkpVx (x : RegIx) (s : State) : Host.Outcome State Fault Refusal :=
  match tableIndex (s.reg x) with
  | none => raise .invalidOpcode (.skpVx x) s
  | some k => .next (s.skipIf (s.key k))

/-- ExA1: skip if the key numbered V[x] is not pressed; InvalidOpcode above 15 (R98). -/
def execSknpVx (x : RegIx) (s : State) : Host.Outcome State Fault Refusal :=
  match tableIndex (s.reg x) with
  | none => raise .invalidOpcode (.sknpVx x) s
  | some k => .next (s.skipIf (!s.key k))

/-- Fx07: V[x] <- DT (R101). -/
def execLdVxDt (x : RegIx) (s : State) : Host.Outcome State Fault Refusal :=
  .next ((s.setReg x s.dt).advance 2)

/-- Fx0A: the first execution arms the wait; a later one completes it with the lowest newly pressed key,
or samples the keypad again. PC is held while it waits (R99). -/
def execLdVxK (x : RegIx) (s : State) : Host.Outcome State Fault Refusal :=
  if s.wait then
    if s.newKeys = 0 then .next { s with keyPrev := s.keypad }
    else .next (({ s with wait := false, waitX := 0, keyPrev := 0 }.setReg x
      (BitVec.ofNat 8 (lowestKey s.newKeys))).advance 2)
  else .next { s with keyPrev := s.keypad, wait := true, waitX := x }

/-- Fx15: DT <- V[x] (R102). -/
def execLdDtVx (x : RegIx) (s : State) : Host.Outcome State Fault Refusal :=
  .next ({ s with dt := s.reg x }.advance 2)

/-- Fx18: ST <- V[x] (R103). -/
def execLdStVx (x : RegIx) (s : State) : Host.Outcome State Fault Refusal :=
  .next ({ s with st := s.reg x }.advance 2)

end Sys2Proof.Machine
end

