-- ==== Sys2Proof/Machine/Cycle.lean ====
section
/-! DEFINITION. One CYCLE command (spec/30_encoding.md R50): fetch, decode and execute one instruction. -/

namespace Sys2Proof.Machine

/-- A fetched word's execution: the instruction it selects, or InvalidOpcode with that word (R46, R47). -/
def runWord (w : Word) (s : State) : Host.Outcome State Fault Refusal :=
  match decodeWord w with
  | .ok i => exec i s
  | .error _ => .next (takeFault .invalidOpcode (some w) s)

/-- The state a cycle works on: with the first cycle, LOAD is no longer accepted (R41). -/
def State.closeLoad (s : State) : State := { s with loadable := false }

/-- Cycle(): nothing while HALTED is 1; else fetch, decode and execute, or take the fetch's fault, which
records no word (R50, R105, R109). -/
def cycle (s : State) : Host.Outcome State Fault Refusal :=
  if s.fault.halted then .next s
  else
    match fetch s with
    | .error c => .next (takeFault c none s.closeLoad)
    | .ok w => runWord w s.closeLoad

end Sys2Proof.Machine
end

