-- ==== Sys2Proof/Machine/Ports.lean ====
section
/-! DEFINITION. The host's ports (spec/10_state.md R24): what each command does, what it responds, and the
read-only outputs (spec/60_exceptions.md R114 to R118, spec/20_memory.md R40, R41). -/

namespace Sys2Proof.Machine

/-- A timer one tick later: one less, stopping at zero (R114). -/
def tickTimer (t : Byte) : Byte := if t.toNat > 0 then t - 1 else t

/-- TICK() (R114). -/
def tick (s : State) : State := { s with dt := tickTimer s.dt, st := tickTimer s.st }

/-- RESET() puts every state element in its reset value; the parameters stay what they are, the keypad and the
random bytes are inputs, which reset cannot set, and the host's further commands are still to come (R5, R122,
R123). -/
def resetCommand (s : State) : State :=
  { State.resetWith s.params with keypad := s.keypad, rnd := s.rnd, draws := s.draws, inbox := s.inbox }

/-- The bytes of a program copied to a, a + 1, ... (R40). -/
def copyProgram (f : Font) (m : Memory) (a : Nat) : List Byte → Memory
  | [] => m
  | b :: bs => copyProgram f (Memory.write f m a b) (a + 1) bs

/-- What LOAD responds (R40, R41, R111). -/
inductive LoadResponse where
  /-- OK -/
  | ok
  /-- ProgramTooLarge, code 5 -/
  | programTooLarge
  /-- a LOAD that is not the one between RESET and the first cycle (R41, H9; log entry 6 for a second one) -/
  | refused
deriving DecidableEq, Repr

/-- The response of LOAD(bytes): refused when it comes late, else by the length, at most 3584 (R40, R41). -/
def loadResponse (bytes : List Byte) (s : State) : LoadResponse :=
  if s.loadable = false then .refused
  else if bytes.length > 4096 - 0x200 then .programTooLarge
  else .ok

/-- LOAD(bytes): only one that responds OK changes the state (R40, R41, R111). -/
def load (bytes : List Byte) (s : State) : State :=
  match loadResponse bytes s with
  | .ok => { s with mem := copyProgram s.params.font s.mem 0x200 bytes, loadable := false }
  | .programTooLarge => s
  | .refused => s

/-- What one command of the host does to the core (R24). -/
def perform (c : Command) (s : State) : Host.Outcome State Fault Refusal :=
  match c with
  | .cycle => cycle s
  | .reset => .next (resetCommand s)
  | .load bytes => .next (load bytes s)
  | .tick => .next (tick s)
  | .keypad keys => .next { s with keypad := keys }
  | .random b => .next { s with rnd := s.rnd ++ [b] }
  | .resume pc => .next (resume pc s)

/-- The next thing that happens: the host's next command or, when none is waiting, a CYCLE (R37, R115). -/
def runStep (s : State) : Host.Outcome State Fault Refusal :=
  match s.inbox with
  | [] => cycle s
  | c :: rest => perform c { s with inbox := rest }

/-! ## Responses -/

/-- What a port answers (R24, R50, R110, R111; spec/95_test_vectors.md section 2.9 for the commands without a
response in R24; log entry 14). -/
inductive Response where
  /-- TICK and RESET answer nothing (H5, H10), nor do KEYPAD and RND (log entry 14) -/
  | silent
  /-- CYCLE: OK -/
  | ok
  /-- CYCLE: WAITING -/
  | waiting
  /-- CYCLE: FAULT(kind, word, pc, addr) -/
  | fault (kind : FaultKind) (word : Option Word) (pc : Word) (addr : Option Nat)
  /-- CYCLE: HALTED -/
  | halted
  /-- LOAD -/
  | loaded (r : LoadResponse)
  /-- RESUME: accepted or refused (R110, the vectors H1 and H2 of spec/95_test_vectors.md section 2.9) -/
  | resumed (accepted : Bool)
deriving DecidableEq, Repr

/-- FAULT(kind, word, pc, addr) as the fault status gives it (R50, R105). -/
def faultResponse (f : FaultStatus) : Response :=
  .fault f.kind (if f.wordValid then some f.word else none) f.pc (if f.addrValid then some f.addr else none)

/-- The response of the CYCLE that took a core that was not halted to s (R50). -/
def cycleResponse (s : State) : Response :=
  if s.fault.halted then faultResponse s.fault else if s.wait then .waiting else .ok

/-- What the core responds to a command (R24, spec/95_test_vectors.md section 2.9; log entry 14). -/
def respond (c : Command) (s : State) : Response :=
  match c with
  | .cycle =>
    if s.fault.halted then .halted
    else
      match cycle s with
      | .next t => cycleResponse t
      | .fault _ => .silent
      | .refused _ => .silent
  | .reset => .silent
  | .load bytes => .loaded (loadResponse bytes s)
  | .tick => .silent
  | .keypad _ => .silent
  | .random _ => .silent
  | .resume _ => .resumed s.fault.halted

/-- The code of a LOAD response: ProgramTooLarge is 5 (R111); OK and a refusal have none. -/
def LoadResponse.code : LoadResponse → Option Nat
  | .ok => none
  | .programTooLarge => some 5
  | .refused => none

/-! ## Output ports -/

/-- FB_OUT[2047:0] (R117). -/
def fbOut (s : State) : BitVec 2048 := s.fb

/-- ST_OUT[7:0] (R13, R24). -/
def stOut (s : State) : Byte := s.st

/-- The STATUS port: HALTED and FAULT_*, WAIT, WAIT_X (R24). -/
structure Status where
  fault : FaultStatus
  wait  : Bool
  waitX : RegIx
deriving DecidableEq, Repr

/-- STATUS (R20, R18). -/
def status (s : State) : Status := { fault := s.fault, wait := s.wait, waitX := s.waitX }

/-- The DIAG port's view, MEM apart (R118). -/
structure Diag where
  v     : Vector Byte 16
  i     : Nat
  pc    : Word
  sp    : Fin 17
  stack : Vector Word 16
  dt    : Byte
  st    : Byte
deriving DecidableEq, Repr

/-- DIAG: V, I, PC, SP, STACK, DT and ST (R118). -/
def diag (s : State) : Diag :=
  { v := s.v, i := s.i, pc := s.pc, sp := s.sp, stack := s.stack, dt := s.dt, st := s.st }

/-- DIAG's view of MEM[a] (R118). -/
def diagMem (s : State) (a : Nat) : Byte := s.byte a

end Sys2Proof.Machine
end

