-- ==== Sys2Proof/Machine/Step.lean ====
section
/-! DEFINITION. One step of the machine, and a state whose next step runs a given word. -/

namespace Sys2Proof.Machine

/-- One step: the host's next command, which is a CYCLE when none is waiting (spec/10_state.md R24,
spec/30_encoding.md R50). -/
def step (s : State) : Host.Outcome State Fault Refusal := runStep s

/-- s with the opcode-table word w stored big-endian at PC. What the fetch needs beside that: a PC that can
be fetched at (0x200 when PC is 0xFFF or more), a core that is not halted, and no command before the cycle. -/
def State.withFetchWord (s : State) (_nbits w : Nat) : State :=
  let pc : Word := if s.pc.toNat ≤ 0xFFE then s.pc else 0x200
  let word : Word := BitVec.ofNat 16 w
  { s with
    pc := pc
    mem := Memory.write s.params.font (Memory.write s.params.font s.mem pc.toNat (highByte word))
      (pc.toNat + 1) (lowByte word)
    fault := if s.fault.halted then FaultStatus.clear else s.fault
    inbox := [] }

end Sys2Proof.Machine
end

