-- ==== Sys2Proof/Safety.lean ====
section
/-! DEFINITION. What claims are stated in: how a run starts and ends (spec/70_reset_and_hazards.md R124,
spec/60_exceptions.md R121), and the invariants of every state a run reaches (spec/10_state.md R23). -/

namespace Sys2Proof.Machine

/-- A launch state: RESET, from any state, then one LOAD that responded OK. The inputs and the parameters are
what the host and the machine have them to be (R124, R5). -/
def Launch (s : State) : Prop :=
  ∃ (r : State) (bytes : List Byte), loadResponse bytes (resetCommand r) = .ok ∧ s = load bytes (resetCommand r)

/-- The commands a run consists of: every one but RESET and LOAD (R124); RND gives a cycle its random input (R21). -/
def Command.ofRun : Command → Bool
  | .cycle | .tick | .keypad _ | .random _ | .resume _ => true
  | .reset | .load _ => false

/-- A run from s: these commands, one after another, lead to t (R124). -/
inductive Run : List Command → State → State → Prop
  | done (s : State) : Run [] s s
  | perform {c : Command} {cs : List Command} {s t u : State} :
      c.ofRun = true → perform c s = .next t → Run cs t u → Run (c :: cs) s u

/-- A run that ended in a fault (R121). -/
def State.Faulted (s : State) : Prop := s.fault.halted = true

/-- A run that ended idle: neither halted nor waiting, with a jump to itself at PC (R121). -/
def State.Idle (s : State) : Prop :=
  s.fault.halted = false ∧ s.wait = false ∧
    ∃ nnn : Addr12, fetch s = .ok (encode (.jpAddr nnn)) ∧ target nnn = s.pc

/-- The fault status says one thing: it is clear unless HALTED, and a halted core names a fault, its PC and,
for OutOfBoundsMemoryAccess alone, an address of 0x1000 or more (R20, R105). -/
structure State.FaultCoherent (s : State) : Prop where
  clear_of_running : s.fault.halted = false → s.fault = FaultStatus.clear
  kind_of_halted : s.fault.halted = true → s.fault.kind ≠ .none
  pc_of_halted : s.fault.halted = true → s.fault.pc = s.pc
  addr_iff : s.fault.addrValid = true ↔ s.fault.kind = .outOfBoundsMemoryAccess
  addr_bound : s.fault.addrValid = true → 4096 ≤ s.fault.addr
  addr_zero : s.fault.addrValid = false → s.fault.addr = 0
  word_zero : s.fault.wordValid = false → s.fault.word = 0

/-- The key-wait state agrees with the instruction at PC: WAIT = 1 only over an LD Vx, K with x = WAIT_X, on
a core that is not halted; WAIT = 0 leaves WAIT_X and KEY_PREV at 0 (R18, R19, R23). -/
structure State.WaitCoherent (s : State) : Prop where
  word_of_wait : s.wait = true → fetch s = .ok (encode (.ldVxK s.waitX))
  running_of_wait : s.wait = true → s.fault.halted = false
  idle_zero : s.wait = false → s.waitX = 0 ∧ s.keyPrev = 0

/-- What every state of a run satisfies: parameters as R5 bounds them, I and FAULT_ADDR within their widths, the
canonical memory, return addresses of at most 0x1000, a
coherent fault status and key wait, and LOAD open only before the first cycle (R5, R9, R20, R23, R41, R68). -/
structure State.Inv (s : State) : Prop where
  params_ok : s.params.Ok
  i_lt : s.i < 2 ^ s.params.iWidth
  addr_lt : s.fault.addr < 2 ^ s.params.faultAddrWidth
  mem_wf : s.memWf
  stack_le : ∀ k : Fin 16, s.stack[k].toNat ≤ 0x1000
  fault_coherent : s.FaultCoherent
  wait_coherent : s.WaitCoherent
  fresh_of_loadable : s.loadable = true → s.wait = false ∧ s.fault.halted = false

end Sys2Proof.Machine
end

