-- ==== Sys2Proof/Certificates/Slice0/Obligations.lean ====
section
/-! DEFINITION. The statements for the provers, from the numbered rules of spec/. Where a statement rests on
a decision of the spec's own (a D<n> of spec/92_eei_decisions.md), on a rule the spec derives, or on a choice
of this model, its docstring says so. -/

open Sys2Proof Sys2Proof.Machine

namespace Sys2Proof.Claims

/-! ## Frames: what may differ between the states before and after -/

/-- Every byte of memory reads as before. -/
def SameMemory (s t : State) : Prop := ∀ a, t.byte a = s.byte a

/-- Only PC differs. -/
def OnlyPc (s t : State) : Prop := t = { s with pc := t.pc } ∧ SameMemory s t

/-- Only registers and PC differ. -/
def OnlyRegsPc (s t : State) : Prop := t = { s with v := t.v, pc := t.pc } ∧ SameMemory s t

/-- Only I and PC differ. -/
def OnlyIPc (s t : State) : Prop := t = { s with i := t.i, pc := t.pc } ∧ SameMemory s t

/-- Only the fault status differs. -/
def OnlyFault (s t : State) : Prop := t = { s with fault := t.fault } ∧ SameMemory s t

/-- The fault status says HALTED, this FAULT_KIND code, this PC, this word and this exact address (R20, R105). -/
def Records (f : FaultStatus) (code : BitVec 3) (pc : Word) (word : Option Word) (addr : Option Nat) : Prop :=
  f.halted = true ∧ f.kind.code = code ∧ f.pc = pc ∧ f.wordValid = word.isSome ∧ f.word = word.getD 0 ∧
    f.addrValid = addr.isSome ∧ f.addr = addr.getD 0

/-! ## Shapes of result -/

/-- i completes with V[x] = b, PC + 2 and nothing else changed. -/
def WritesReg (i : Instr) (x : RegIx) (b : Byte) (s : State) : Prop :=
  ∃ t, exec i s = .next t ∧ t.reg x = b ∧ (∀ k, k ≠ x → t.reg k = s.reg k) ∧ t.pc = s.pc + 2 ∧ OnlyRegsPc s t

/-- i completes with the number r in V[x], unless x is 0xF, the number f in VF, PC + 2 and nothing else changed. -/
def WritesFlagged (i : Instr) (x : RegIx) (r f : Nat) (s : State) : Prop :=
  ∃ t, exec i s = .next t ∧ (x ≠ 0xF → (t.reg x).toNat = r) ∧ (t.reg 0xF).toNat = f ∧
    (∀ k, k ≠ x → k ≠ 0xF → t.reg k = s.reg k) ∧ t.pc = s.pc + 2 ∧ OnlyRegsPc s t

/-- i completes with PC + 4 if c holds, else PC + 2, and nothing else changed. -/
def Skips (i : Instr) (c : Prop) (s : State) : Prop :=
  ∃ t, exec i s = .next t ∧ (c → t.pc = s.pc + 4) ∧ (¬ c → t.pc = s.pc + 2) ∧ OnlyPc s t

/-- i raises InvalidOpcode: the fault status is written with i's word and nothing else changes. -/
def RaisesInvalidOpcode (i : Instr) (s : State) : Prop :=
  ∃ t, exec i s = .next t ∧ Records t.fault 1 s.pc (some (encode i)) none ∧ OnlyFault s t

/-- Memory after storing bytes at a, a + 1, ...: the ones inside the memory, and no other address, changed. -/
def Stored (s t : State) (a : Nat) (bytes : List Byte) : Prop :=
  ∀ k, (a ≤ k → k < a + bytes.length → k < 4096 → t.byte k = bytes.getD (k - a) 0) ∧
    (¬ (a ≤ k ∧ k < a + bytes.length ∧ k < 4096) → t.byte k = s.byte k)

/-- i stores these bytes from I up and completes when all lie inside the memory; else it faults at the first
address that does not, with the bytes before it stored. I, V and the rest are unchanged either way. -/
def StoresFromI (i : Instr) (bytes : List Byte) (s : State) : Prop :=
  (s.i + bytes.length ≤ 4096 →
    ∃ t, exec i s = .next t ∧ Stored s t s.i bytes ∧ t.pc = s.pc + 2 ∧ t = { s with mem := t.mem, pc := t.pc }) ∧
  (4096 < s.i + bytes.length →
    ∃ t, exec i s = .next t ∧ Stored s t s.i bytes ∧
      Records t.fault 4 s.pc (some (encode i)) (some (max s.i 4096)) ∧
      t = { s with mem := t.mem, fault := t.fault })

/-- Each of V[0]..V[x] whose address I + k is inside the memory holds the byte there, and no other register
changed. -/
def Loaded (s t : State) (x : RegIx) : Prop :=
  ∀ k : RegIx, (k.toNat ≤ x.toNat → s.i + k.toNat < 4096 → t.reg k = s.byte (s.i + k.toNat)) ∧
    (¬ (k.toNat ≤ x.toNat ∧ s.i + k.toNat < 4096) → t.reg k = s.reg k)

/-- The sprite of DRW Vx, Vy, n has a 1 at column px and row py of the screen, in a row it can read (R56, R57). -/
def SpriteOne (s : State) (x y : RegIx) (n : Nibble) (px py : Nat) : Prop :=
  (s.reg x).toNat ≤ px ∧ px < (s.reg x).toNat + 8 ∧ (s.reg y).toNat ≤ py ∧ py < (s.reg y).toNat + n.toNat ∧
    s.i + (py - (s.reg y).toNat) < 4096 ∧
    (s.byte (s.i + (py - (s.reg y).toNat))).getLsbD (7 - (px - (s.reg x).toNat)) = true

/-- Every cell of the screen is flipped where the sprite has a readable 1, and kept elsewhere. -/
def Drawn (s t : State) (x y : RegIx) (n : Nibble) : Prop :=
  ∀ px py, px < 64 → py < 32 →
    (SpriteOne s x y n px py → pixel t.fb px py = !pixel s.fb px py) ∧
    (¬ SpriteOne s x y n px py → pixel t.fb px py = pixel s.fb px py)

/-- Some drawn 1-pixel falls on a cell that holds 1. -/
def Collides (s : State) (x y : RegIx) (n : Nibble) : Prop :=
  ∃ px py, px < 64 ∧ py < 32 ∧ SpriteOne s x y n px py ∧ pixel s.fb px py = true

/-- Every access of DRW with height n is inside the memory (R60). -/
def SpriteReadable (s : State) (n : Nibble) : Prop := n = 0 ∨ s.i + n.toNat ≤ 4096

/-! ## Tables over all instructions -/

/-- The instructions that write I (R9). -/
def writesI : Instr → Bool
  | .ldIAddr _ | .addIVx _ | .ldIVx _ => true
  | _ => false

/-- The instructions that write SP and STACK: CALL and RET (R11). -/
def writesStack : Instr → Bool
  | .callAddr _ | .ret => true
  | _ => false

/-- LD DT, Vx (R13). -/
def writesDt : Instr → Bool
  | .ldDtVx _ => true
  | _ => false

/-- LD ST, Vx (R13). -/
def writesSt : Instr → Bool
  | .ldStVx _ => true
  | _ => false

/-- The instructions that write memory (R25). -/
def writesMem : Instr → Bool
  | .ldBVx _ | .ldMemVx _ => true
  | _ => false

/-- The instructions that write the framebuffer (R15). -/
def writesFb : Instr → Bool
  | .cls | .drwVxVyNibble _ _ _ => true
  | _ => false

/-- LD Vx, K (R18, R19). -/
def writesWait : Instr → Bool
  | .ldVxK _ => true
  | _ => false

/-- RND, the one reader of the random input (R21). -/
def consumesRandom : Instr → Bool
  | .rndVxByte _ _ => true
  | _ => false

/-- The instructions that read the keypad (R17). -/
def readsKeypad : Instr → Bool
  | .skpVx _ | .sknpVx _ | .ldVxK _ => true
  | _ => false

/-- The instructions that read or write a timer (R13). -/
def usesTimers : Instr → Bool
  | .ldVxDt _ | .ldDtVx _ | .ldStVx _ => true
  | _ => false

/-- Whether i can write V[k], as a result or as a flag (R7, R8). -/
def writesReg (i : Instr) (k : RegIx) : Bool :=
  match i with
  | .ldVxByte x _ | .addVxByte x _ | .ldVxVy x _ | .orVxVy x _ | .andVxVy x _ | .xorVxVy x _ | .rndVxByte x _
  | .ldVxDt x | .ldVxK x => k == x
  | .addVxVy x _ | .subVxVy x _ | .shrVxVy x _ | .subnVxVy x _ | .shlVxVy x _ => k == x || k == 0xF
  | .drwVxVyNibble _ _ _ => k == 0xF
  | .ldVxMem x => decide (k.toNat ≤ x.toNat)
  | _ => false

/-- The fault an instruction raises in a state, as a FAULT_KIND code and the first out-of-bounds address (R104). -/
def faultOf (i : Instr) (s : State) : Option (BitVec 3 × Option Nat) :=
  let bounded (n : Nat) : Option (BitVec 3 × Option Nat) :=
    if n = 0 ∨ s.i + n ≤ 4096 then none else some (4, some (max s.i 4096))
  match i with
  | .callAddr _ => if s.sp.val = 16 then some (2, none) else none
  | .ret => if s.sp.val = 0 then some (3, none) else none
  | .skpVx x | .sknpVx x | .ldIVx x => if (s.reg x).toNat > 15 then some (1, none) else none
  | .drwVxVyNibble _ _ n => bounded n.toNat
  | .ldBVx _ => bounded 3
  | .ldMemVx x | .ldVxMem x => bounded (x.toNat + 1)
  | _ => none

/-- Whether a skip instruction's condition holds (R70 to R73, R97, R98). -/
def skipHolds (i : Instr) (s : State) : Bool :=
  match i with
  | .seVxByte x nn => s.reg x == nn
  | .sneVxByte x nn => s.reg x != nn
  | .seVxVy x y => s.reg x == s.reg y
  | .sneVxVy x y => s.reg x != s.reg y
  | .skpVx x => s.keypad.getLsbD (s.reg x).toNat
  | .sknpVx x => !s.keypad.getLsbD (s.reg x).toNat
  | _ => false

/-- The next PC of an instruction that raises no fault, by the five classes of R51. -/
def nextPc (i : Instr) (s : State) : Word :=
  match i with
  | .jpAddr nnn | .callAddr nnn => nnn.setWidth 16
  | .jpV0Addr nnn => nnn.setWidth 16 + (s.reg 0).setWidth 16
  | .ret => s.stack[s.sp.val - 1]'(by omega)
  | .ldVxK _ => if s.wait = true ∧ s.keypad &&& ~~~s.keyPrev ≠ 0 then s.pc + 2 else s.pc
  | .seVxByte _ _ | .sneVxByte _ _ | .seVxVy _ _ | .sneVxVy _ _ | .skpVx _ | .sknpVx _ =>
    if skipHolds i s then s.pc + 4 else s.pc + 2
  | _ => s.pc + 2

/-- Digit j of a three-digit number, the hundreds first (R93). -/
def decimalDigit (v j : Nat) : Nat := if j = 0 then v / 100 else if j = 1 then v / 10 % 10 else v % 10

/-- The words of R47's table, as numbers. -/
def InvalidWord (w : Nat) : Prop :=
  (w / 4096 = 0x0 ∧ w ≠ 0x00E0 ∧ w ≠ 0x00EE) ∨ (w / 4096 = 0x5 ∧ w % 16 ≠ 0) ∨
  (w / 4096 = 0x8 ∧ w % 16 ∈ [0x8, 0x9, 0xA, 0xB, 0xC, 0xD, 0xF]) ∨ (w / 4096 = 0x9 ∧ w % 16 ≠ 0) ∨
  (w / 4096 = 0xE ∧ w % 256 ∉ [0x9E, 0xA1]) ∨
  (w / 4096 = 0xF ∧ w % 256 ∉ [0x07, 0x0A, 0x15, 0x18, 0x1E, 0x29, 0x33, 0x55, 0x65])

/-- A function of the next state, carried over an outcome. -/
def mapNext (f : State → State) : Host.Outcome State Fault Refusal → Host.Outcome State Fault Refusal
  | .next t => .next (f t)
  | .fault r => .fault r
  | .refused r => .refused r

end Sys2Proof.Claims

open Sys2Proof.Claims

/-! ## Encoding -/

/-- Decoding the bytes of any instruction, whatever follows them, gives the instruction back. -/
def Obligations.DecodeOfEncodeIsTheInstruction : Prop :=
  ∀ (i : Instr) (rest : List Byte), decodeBytes (encodeBytes i ++ rest) = .ok (i, rest)

/-- A word selects an instruction exactly when it is that instruction's word in the table of R46, and no two
instructions share a word. -/
def Obligations.WordSelectsExactlyItsTableRow : Prop :=
  (∀ (w : Word) (i : Instr), decodeWord w = .ok i ↔ w = encode i) ∧
  (∀ w : Word, (∀ i, w ≠ encode i) → ∃ e, decodeWord w = .error e) ∧
  (∀ i j : Instr, encode i = encode j → i = j)

/-- The words that select no instruction are those of R47's table. -/
def Obligations.InvalidWordsAreThoseOfTheTable : Prop :=
  ∀ w : Word, (∃ e, decodeWord w = .error e) ↔ InvalidWord w.toNat

/-- Words written out from the encodings of R44 and R46, one of each format and family. -/
def Obligations.TableWordsDecode : Prop :=
  decodeTableWord 16 0x00E0 = some .cls ∧
  decodeTableWord 16 0x1345 = some (.jpAddr 0x345) ∧
  decodeTableWord 16 0x332A = some (.seVxByte 0x3 0x2A) ∧
  decodeTableWord 16 0x8125 = some (.subVxVy 0x1 0x2) ∧
  decodeTableWord 16 0xA300 = some (.ldIAddr 0x300) ∧
  decodeTableWord 16 0xD125 = some (.drwVxVyNibble 0x1 0x2 0x5) ∧
  decodeTableWord 16 0xE59E = some (.skpVx 0x5) ∧
  decodeTableWord 16 0xF255 = some (.ldMemVx 0x2) ∧
  decodeTableWord 16 0x5001 = none ∧ decodeTableWord 16 0x0000 = none

/-- An assembly line is accepted exactly when it is well formed: an operand out of its field's range is an
error, never truncated (decisions D24 and D25 of the spec). -/
def Obligations.AssemblerAcceptsExactlyWellFormedLines : Prop :=
  ∀ l : Line, (assemble l).isSome = true ↔ l.wf = true

/-- Every instruction is written as a line that assembles to it and to nothing else (decision D25). -/
def Obligations.AssemblingALineGivesItsInstruction : Prop :=
  ∀ i : Instr, i.line.wf = true ∧ assemble i.line = some i

/-! ## The cycle -/

/-- When the core is not halted and the bytes at PC decode to i, a step that carries out a CYCLE is exec of i.
The host's CYCLE is the waiting command, or, when no command is waiting, a step is a CYCLE all the same: that is
this model's choice (log entry 5). LOAD is closed by the cycle, in the model's own field loadable (log entry 6). -/
def Obligations.StepRunsTheDecodedInstruction : Prop :=
  ∀ (s : State) (i : Instr), s.fault.halted = false → s.pc.toNat ≤ 0xFFE →
    decodeBytes [s.byte s.pc.toNat, s.byte (s.pc.toNat + 1)] = .ok (i, []) →
    (s.inbox = [] → step s = exec i { s with loadable := false }) ∧
    (∀ rest, s.inbox = .cycle :: rest → step s = exec i { s with inbox := rest, loadable := false })

/-- A step carries out the host's first waiting command, which leaves the list, or a CYCLE when none is waiting.
How commands wait is this model's choice (log entry 5). -/
def Obligations.StepPerformsTheFirstCommand : Prop :=
  ∀ s : State, (s.inbox = [] → step s = perform .cycle s) ∧
    ∀ c rest, s.inbox = c :: rest → step s = perform c { s with inbox := rest }

/-- The word at a is MEM[a] : MEM[a+1]: the byte at the lower address supplies bits 15..8. -/
def Obligations.FetchIsBigEndian : Prop :=
  ∀ s : State, s.pc.toNat ≤ 0xFFE → ∃ w, fetch s = .ok w ∧
    w.toNat / 256 = (s.byte s.pc.toNat).toNat ∧ w.toNat % 256 = (s.byte (s.pc.toNat + 1)).toNat

/-- A cycle at PC 0xFFF or above faults with no word, at the first of PC and PC + 1 outside the memory, and
writes nothing but the fault status (decisions D9, D12 and D28; loadable is the model's own, log entry 6). -/
def Obligations.FetchBeyondMemoryFaults : Prop :=
  ∀ s : State, s.fault.halted = false → 0xFFF ≤ s.pc.toNat →
    ∃ t, cycle s = .next t ∧ Records t.fault 4 s.pc none (some (max s.pc.toNat 0x1000)) ∧
      t = { s with fault := t.fault, loadable := false }

/-- A cycle over an invalid word raises InvalidOpcode with that word and writes nothing but the fault status
(decision D12 for the latch; loadable is the model's own, log entry 6). -/
def Obligations.InvalidWordFaults : Prop :=
  ∀ (s : State) (w : Word), s.fault.halted = false → fetch s = .ok w → InvalidWord w.toNat →
    ∃ t, cycle s = .next t ∧ Records t.fault 1 s.pc (some w) none ∧
      t = { s with fault := t.fault, loadable := false }

/-- While HALTED is 1 a CYCLE changes nothing and responds HALTED (decision D12). -/
def Obligations.HaltedCycleChangesNothing : Prop :=
  ∀ s : State, s.fault.halted = true → cycle s = .next s ∧ respond .cycle s = .halted

/-- What a CYCLE of a core that is not halted responds: FAULT with the recorded word, the PC it fetched at and
the address, or WAITING, or OK (decision D12). -/
def Obligations.CycleResponds : Prop :=
  ∀ s t : State, s.fault.halted = false → cycle s = .next t →
    (t.fault.halted = true → respond .cycle s =
      .fault t.fault.kind (if t.fault.wordValid then some t.fault.word else none) s.pc
        (if t.fault.addrValid then some t.fault.addr else none)) ∧
    (t.fault.halted = false → t.wait = true → respond .cycle s = .waiting) ∧
    (t.fault.halted = false → t.wait = false → respond .cycle s = .ok)

/-- The core never stops by itself: every instruction in every state, and every step, answers a next state. That
a fault is a next state, and that nothing stops the model, is the model's reading of R105 (log entry 16). -/
def Obligations.EveryStepAnswersANextState : Prop :=
  (∀ (i : Instr) (s : State), ∃ t, exec i s = .next t) ∧ ∀ s : State, ∃ t, step s = .next t

/-! ## Reset, launch and invariants -/

/-- The state after reset, field by field, for every value of the parameters of R5; State.reset is the one of
the spec's values (decisions D18 and D27 for the font, I and the added state; log entries 1 and 2). -/
def Obligations.ResetValues : Prop :=
  State.reset = State.resetWith Config.params ∧ Config.params.iWidth = 16 ∧
  ∀ (p : Params) (s : State), s = State.resetWith p →
    s.params = p ∧ (∀ x, s.reg x = 0) ∧ s.i = 0 ∧ s.pc = 0x200 ∧ s.sp = 0 ∧ (∀ k : Fin 16, s.stack[k] = 0) ∧
    s.dt = 0 ∧ s.st = 0 ∧
    (∀ a, s.byte a = if h : 0x050 ≤ a ∧ a ≤ 0x09F then p.font[a - 0x050] else 0) ∧
    (∀ px py, pixel s.fb px py = false) ∧ s.wait = false ∧ s.waitX = 0 ∧ s.keyPrev = 0 ∧
    s.fault = FaultStatus.clear

/-- RESET puts every element in its reset value from any state, whatever the parameters; the inputs stay as the
host drives them (decision D27; log entries 4 and 5). -/
def Obligations.ResetCommandFromAnyState : Prop :=
  ∀ s : State, ∃ t, perform .reset s = .next t ∧ t.keypad = s.keypad ∧ t.inbox = s.inbox ∧ t.rnd = s.rnd ∧
    t.draws = s.draws ∧
    { t with keypad := 0, rnd := [], draws := 0, inbox := [] } = State.resetWith s.params

/-- The reset state satisfies the invariant, for every value R5 allows the parameters. -/
def Obligations.ResetMeetsTheInvariant : Prop :=
  State.reset.Inv ∧ ∀ p : Params, p.Ok → (State.resetWith p).Inv

/-- RESET, from any state, and one LOAD of at most 3584 bytes lead to a launch state: the reset state with the
program's bytes from 0x200 up, the inputs as the host has them. It satisfies the invariant (decision D16; log
entries 4 and 6 for the inputs and loadable). -/
def Obligations.LaunchStates : Prop :=
  ∀ (r : State) (bytes : List Byte), bytes.length ≤ 3584 →
    ∃ s t, perform .reset r = .next s ∧ respond (.load bytes) s = .loaded .ok ∧
      perform (.load bytes) s = .next t ∧ Launch t ∧ (r.params.Ok → t.Inv) ∧
      t = { State.resetWith r.params with
        keypad := r.keypad, rnd := r.rnd, draws := r.draws, inbox := r.inbox, mem := t.mem, loadable := false } ∧
      ∀ a, t.byte a =
        if 0x200 ≤ a ∧ a < 0x200 + bytes.length then bytes.getD (a - 0x200) 0
        else (State.resetWith r.params).byte a

/-- A host that issues RESET and then LOAD brings the core from any state to a launch state in two steps, with
its further commands still to come and its keypad as it was (log entry 5 for the waiting commands). -/
def Obligations.LaunchByCommands : Prop :=
  ∀ (s : State) (bytes : List Byte) (rest : List Command),
    s.inbox = .reset :: .load bytes :: rest → bytes.length ≤ 3584 →
    ∃ t u, step s = .next t ∧ step t = .next u ∧ Launch u ∧ u.inbox = rest ∧ u.keypad = s.keypad ∧
      u.params = s.params ∧ u.pc = 0x200

/-- Every state of a run, a sequence of cycles, ticks, input changes and RESUMEs from a launch state, satisfies
the invariant. -/
def Obligations.RunsKeepTheInvariant : Prop :=
  ∀ (cs : List Command) (s t : State), Launch s → s.params.Ok → Run cs s t → t.Inv

/-- Every step, whatever the host commands, keeps the invariant: I and FAULT_ADDR within their widths, canonical
memory, coherent fault status and key wait, return addresses of at most 0x1000, LOAD only before the first
cycle. -/
def Obligations.StepKeepsTheInvariant : Prop :=
  ∀ s t : State, s.Inv → step s = .next t → t.Inv

/-- No step changes the parameters. -/
def Obligations.StepKeepsTheParameters : Prop :=
  ∀ s t : State, step s = .next t → t.params = s.params

/-- From a state of a run, a cycle keeps PC or writes one of at most 0x10FE (a rule the spec derives); and where
a fetch succeeds, PC + 2 and PC + 4 do not wrap. -/
def Obligations.CycleKeepsPcOrWritesAtMost10FE : Prop :=
  (∀ s t : State, s.Inv → cycle s = .next t → t.pc = s.pc ∨ t.pc.toNat ≤ 0x10FE) ∧
  ∀ (s : State) (w : Word), fetch s = .ok w →
    (s.pc + 2).toNat = s.pc.toNat + 2 ∧ (s.pc + 4).toNat = s.pc.toNat + 4

/-! ## Register loads, ALU and random -/

/-- The instructions that write one register and no flag. -/
def Obligations.PlainRegisterWrites : Prop :=
  ∀ (s : State) (x y : RegIx) (nn : Byte),
    WritesReg (.ldVxByte x nn) x nn s ∧
    WritesReg (.addVxByte x nn) x (BitVec.ofNat 8 ((s.reg x).toNat + nn.toNat)) s ∧
    WritesReg (.ldVxVy x y) x (s.reg y) s ∧
    WritesReg (.orVxVy x y) x (s.reg x ||| s.reg y) s ∧
    WritesReg (.andVxVy x y) x (s.reg x &&& s.reg y) s ∧
    WritesReg (.xorVxVy x y) x (s.reg x ^^^ s.reg y) s ∧
    WritesReg (.ldVxDt x) x s.dt s

/-- The flag-writing ALU instructions: the result modulo 256 and the flag, both from the old values, VF last. -/
def Obligations.FlaggedArithmetic : Prop :=
  ∀ (s : State) (x y : RegIx),
    WritesFlagged (.addVxVy x y) x (((s.reg x).toNat + (s.reg y).toNat) % 256)
      (if (s.reg x).toNat + (s.reg y).toNat > 255 then 1 else 0) s ∧
    WritesFlagged (.subVxVy x y) x ((256 + (s.reg x).toNat - (s.reg y).toNat) % 256)
      (if (s.reg x).toNat > (s.reg y).toNat then 1 else 0) s ∧
    WritesFlagged (.shrVxVy x y) x ((s.reg x).toNat / 2) ((s.reg x).toNat % 2) s ∧
    WritesFlagged (.subnVxVy x y) x ((256 + (s.reg y).toNat - (s.reg x).toNat) % 256)
      (if (s.reg y).toNat > (s.reg x).toNat then 1 else 0) s ∧
    WritesFlagged (.shlVxVy x y) x (2 * (s.reg x).toNat % 256) ((s.reg x).toNat / 128) s

/-- RND consumes one draw, whatever the mask, and writes the draw AND nn. The draw is the host's next byte or,
when it has supplied none, the free value of this draw (decision D20; log entry 3), so the clause holds for
every byte. -/
def Obligations.RndMasksOneDraw : Prop :=
  ∀ (s : State) (x : RegIx) (nn : Byte), ∃ t r, exec (.rndVxByte x nn) s = .next t ∧
    (∀ b bs, s.rnd = b :: bs → r = b ∧ t.rnd = bs) ∧ (s.rnd = [] → r = Config.randomByte s.draws ∧ t.rnd = []) ∧
    t.draws = s.draws + 1 ∧ t.reg x = r &&& nn ∧
    (∀ j, nn.getLsbD j = false → (t.reg x).getLsbD j = false) ∧ (∀ k, k ≠ x → t.reg k = s.reg k) ∧
    t.pc = s.pc + 2 ∧ t = { s with v := t.v, pc := t.pc, rnd := t.rnd, draws := t.draws } ∧ SameMemory s t

/-! ## Control transfer -/

/-- JP addr and JP V0, addr: the exact target, nothing else changed, and a target of 0xFFF or more faults at
the next fetch. -/
def Obligations.JumpsSetPc : Prop :=
  ∀ (s : State) (nnn : Addr12),
    (∃ t, exec (.jpAddr nnn) s = .next t ∧ t.pc.toNat = nnn.toNat ∧ OnlyPc s t ∧
      (0xFFF ≤ t.pc.toNat → ∃ a, fetch t = .error (.outOfBounds a))) ∧
    (∃ t, exec (.jpV0Addr nnn) s = .next t ∧ t.pc.toNat = nnn.toNat + (s.reg 0).toNat ∧ OnlyPc s t ∧
      (0xFFF ≤ t.pc.toNat → ∃ a, fetch t = .error (.outOfBounds a)))

/-- The skips on registers and immediates; and a word 5xyn or 9xyn with n other than 0 raises InvalidOpcode (R47)
and writes nothing but the fault status, HALTED = 1 with it (R105, decision D12). -/
def Obligations.RegisterSkips : Prop :=
  ∀ (s : State) (x y : RegIx) (nn : Byte) (n : Nibble),
    Skips (.seVxByte x nn) (s.reg x = nn) s ∧ Skips (.sneVxByte x nn) (s.reg x ≠ nn) s ∧
    Skips (.seVxVy x y) (s.reg x = s.reg y) s ∧ Skips (.sneVxVy x y) (s.reg x ≠ s.reg y) s ∧
    (n ≠ 0 → ∀ w, w = formatXYN 0x5 x y n ∨ w = formatXYN 0x9 x y n →
      ∃ t, runWord w s = .next t ∧ t.fault.halted = true ∧ t.fault.kind = .invalidOpcode ∧ OnlyFault s t)

/-- CALL stores PC + 2 in STACK[SP], then SP + 1, and jumps; with SP = 16 it raises StackOverflow and writes
nothing but the fault status (decisions D1, D2 and D12). -/
def Obligations.CallPushesTheReturnAddress : Prop :=
  ∀ (s : State) (nnn : Addr12),
    (∀ h : s.sp.val < 16, ∃ t, exec (.callAddr nnn) s = .next t ∧ t.pc.toNat = nnn.toNat ∧
      t.sp.val = s.sp.val + 1 ∧ t.stack[s.sp.val] = s.pc + 2 ∧
      (∀ k (hk : k < 16), k ≠ s.sp.val → t.stack[k] = s.stack[k]) ∧
      t = { s with pc := t.pc, sp := t.sp, stack := t.stack } ∧ SameMemory s t) ∧
    (s.sp.val = 16 → ∃ t, exec (.callAddr nnn) s = .next t ∧
      Records t.fault 2 s.pc (some (encode (.callAddr nnn))) none ∧ OnlyFault s t)

/-- RET takes PC from STACK[SP-1] and adds nothing, then SP - 1; the slot is not cleared; with SP = 0 it raises
StackUnderflow and writes nothing but the fault status (decisions D1, D2 and D12). -/
def Obligations.RetPopsTheReturnAddress : Prop :=
  ∀ s : State,
    (0 < s.sp.val → ∃ t, exec .ret s = .next t ∧ t.pc = s.stack[s.sp.val - 1]'(by omega) ∧
      t.sp.val + 1 = s.sp.val ∧ t = { s with pc := t.pc, sp := t.sp } ∧ SameMemory s t) ∧
    (s.sp.val = 0 → ∃ t, exec .ret s = .next t ∧ Records t.fault 3 s.pc (some (encode .ret)) none ∧ OnlyFault s t)

/-- A CALL and, from any later state with the SP it left and the slot it wrote, the RET: PC is the CALL's
address + 2 and SP is back (a rule the spec derives, over decisions D1 and D2). -/
def Obligations.CallThenRetReturns : Prop :=
  ∀ (s t u : State) (nnn : Addr12) (h : s.sp.val < 16), exec (.callAddr nnn) s = .next t →
    u.sp = t.sp → u.stack[s.sp.val] = t.stack[s.sp.val] →
    ∃ w, exec .ret u = .next w ∧ w.pc = s.pc + 2 ∧ w.sp = s.sp

/-! ## The address register and memory -/

/-- LD I, addr and LD I, Vx: the value of I, PC + 2 and nothing else; LD I, Vx raises InvalidOpcode above 0xF
(decision D12 for what the fault records). -/
def Obligations.SettingI : Prop :=
  ∀ (s : State) (x : RegIx) (nnn : Addr12),
    (∃ t, exec (.ldIAddr nnn) s = .next t ∧ t.i = nnn.toNat ∧ t.pc = s.pc + 2 ∧ OnlyIPc s t) ∧
    ((s.reg x).toNat ≤ 0xF → ∃ t, exec (.ldIVx x) s = .next t ∧ t.i = 0x050 + 5 * (s.reg x).toNat ∧
      t.pc = s.pc + 2 ∧ OnlyIPc s t) ∧
    (0xF < (s.reg x).toNat → RaisesInvalidOpcode (.ldIVx x) s)

/-- ADD I, Vx adds modulo 2^I_WIDTH, for every I_WIDTH, with no mask to 12 bits, no flag and no fault
(decision D3; the spec's value 16 is log entry 1). -/
def Obligations.AddIWrapsAtItsStorageWidth : Prop :=
  ∀ (s : State) (x : RegIx), ∃ t, exec (.addIVx x) s = .next t ∧
    t.i = (s.i + (s.reg x).toNat) % 2 ^ s.params.iWidth ∧ t.pc = s.pc + 2 ∧ OnlyIPc s t

/-- LD B, Vx stores the hundreds, tens and units of V[x] at I, I+1, I+2, or faults at the first of them outside
the memory with the digits before it stored (decisions D5 and D12). -/
def Obligations.BcdStoresThreeDigits : Prop :=
  ∀ (s : State) (x : RegIx), s.memWf → ∃ h t u : Byte,
    100 * h.toNat + 10 * t.toNat + u.toNat = (s.reg x).toNat ∧ h.toNat ≤ 2 ∧ t.toNat ≤ 9 ∧ u.toNat ≤ 9 ∧
    StoresFromI (.ldBVx x) [h, t, u] s

/-- LD [I], Vx stores V[0]..V[x] at I..I+x, or faults at the first address outside the memory with the bytes
before it stored (decisions D5 and D12). -/
def Obligations.RegistersAreStoredFromI : Prop :=
  ∀ (s : State) (x : RegIx), s.memWf → ∃ bytes : List Byte, bytes.length = x.toNat + 1 ∧
    (∀ k : RegIx, k.toNat ≤ x.toNat → bytes.getD k.toNat 0 = s.reg k) ∧ StoresFromI (.ldMemVx x) bytes s

/-- LD Vx, [I] loads V[0]..V[x] from I..I+x and completes when all lie inside the memory; else it faults at the
first address outside it, with the registers before it loaded (decisions D5 and D12). -/
def Obligations.RegistersAreLoadedFromI : Prop :=
  ∀ (s : State) (x : RegIx),
    (s.i + x.toNat < 4096 → ∃ t, exec (.ldVxMem x) s = .next t ∧ Loaded s t x ∧ t.pc = s.pc + 2 ∧
      OnlyRegsPc s t) ∧
    (4096 ≤ s.i + x.toNat → ∃ t, exec (.ldVxMem x) s = .next t ∧ Loaded s t x ∧
      Records t.fault 4 s.pc (some (encode (.ldVxMem x))) (some (max s.i 4096)) ∧
      t = { s with v := t.v, fault := t.fault } ∧ SameMemory s t)

/-- LD [I], Vx and then, with the same I and the bytes at I..I+x not written between, LD Vx, [I] restores
V[0]..V[x], whatever the registers and the rest of memory held between (a rule the spec derives). -/
def Obligations.StoreThenLoadRestoresRegisters : Prop :=
  ∀ (s t u : State) (x : RegIx), s.memWf → s.i + x.toNat < 4096 → exec (.ldMemVx x) s = .next t → u.i = s.i →
    (∀ k ≤ x.toNat, u.byte (s.i + k) = t.byte (s.i + k)) →
    ∃ w, exec (.ldVxMem x) u = .next w ∧ ∀ k : RegIx, k.toNat ≤ x.toNat → w.reg k = s.reg k

/-- A word stored by LD [I], Vx, from V[k] and V[k+1], or by LD B, Vx, from two digits that follow each other, is
the word a later fetch at its address reads, with no fence or delay; the two bytes need only be unchanged since
(a rule the spec derives). -/
def Obligations.StoredWordIsFetched : Prop :=
  ∀ (s t u : State) (x : RegIx) (k : Nat), s.memWf → s.i + k + 1 < 4096 → u.pc.toNat = s.i + k →
    u.byte (s.i + k) = t.byte (s.i + k) → u.byte (s.i + k + 1) = t.byte (s.i + k + 1) →
    (exec (.ldMemVx x) s = .next t → k + 1 ≤ x.toNat → ∀ p q : RegIx, p.toNat = k → q.toNat = k + 1 →
      fetch u = .ok (joinBytes (s.reg p) (s.reg q))) ∧
    (exec (.ldBVx x) s = .next t → k + 1 ≤ 2 → ∃ w, fetch u = .ok w ∧
      w.toNat = 256 * decimalDigit (s.reg x).toNat k + decimalDigit (s.reg x).toNat (k + 1))

/-! ## Display -/

/-- CLS clears every pixel, advances PC by 2 and changes nothing else. -/
def Obligations.ClsClearsTheScreen : Prop :=
  ∀ s : State, ∃ t, exec .cls s = .next t ∧ (∀ px py, px < 64 → py < 32 → pixel t.fb px py = false) ∧
    t.pc = s.pc + 2 ∧ t = { s with fb := t.fb, pc := t.pc } ∧ SameMemory s t

/-- DRW whose rows are all readable: each cell on the screen is flipped exactly where the sprite has a 1, VF
says whether a 1 fell on a 1, PC + 2, and nothing else changes (decisions D6, D7 and D8). -/
def Obligations.DrwDrawsTheSprite : Prop :=
  ∀ (s : State) (x y : RegIx) (n : Nibble), SpriteReadable s n →
    ∃ t, exec (.drwVxVyNibble x y n) s = .next t ∧ Drawn s t x y n ∧
      (Collides s x y n → t.reg 0xF = 1) ∧ (¬ Collides s x y n → t.reg 0xF = 0) ∧
      (∀ k, k ≠ 0xF → t.reg k = s.reg k) ∧ t.pc = s.pc + 2 ∧
      t = { s with fb := t.fb, v := t.v, pc := t.pc } ∧ SameMemory s t

/-- DRW with a row outside the memory faults at the first such address, whatever the coordinates; the rows
before it stay drawn, and VF and PC keep their values (decisions D5, D7 and D12). -/
def Obligations.DrwFaultsAtTheFirstRowOutside : Prop :=
  ∀ (s : State) (x y : RegIx) (n : Nibble), ¬ SpriteReadable s n →
    ∃ t, exec (.drwVxVyNibble x y n) s = .next t ∧ Drawn s t x y n ∧
      Records t.fault 4 s.pc (some (encode (.drwVxVyNibble x y n))) (some (max s.i 4096)) ∧
      t = { s with fb := t.fb, fault := t.fault } ∧ SameMemory s t

/-- Drawing the same sprite twice at the same origin, with no other framebuffer write and none to the sprite's
bytes between, restores the framebuffer, and the second draw reports a collision exactly when a drawn 1-pixel
fell on a cell that held 0 before the first (a rule the spec derives). -/
def Obligations.DrawingTwiceRestoresTheScreen : Prop :=
  ∀ (s t u : State) (x y x' y' : RegIx) (n : Nibble), SpriteReadable s n →
    exec (.drwVxVyNibble x y n) s = .next t → u.fb = t.fb → u.i = s.i →
    (∀ j < n.toNat, u.byte (s.i + j) = s.byte (s.i + j)) → u.reg x' = s.reg x → u.reg y' = s.reg y →
    ∃ w, exec (.drwVxVyNibble x' y' n) u = .next w ∧ w.fb = s.fb ∧
      (w.reg 0xF = 1 ↔ ∃ px py, px < 64 ∧ py < 32 ∧ SpriteOne s x y n px py ∧ pixel s.fb px py = false)

/-! ## Keys and timers -/

/-- SKP and SKNP skip on the level of the key numbered V[x], and raise InvalidOpcode when V[x] exceeds 15
(decision D12 for what the fault records). -/
def Obligations.KeySkips : Prop :=
  ∀ (s : State) (x : RegIx),
    ((s.reg x).toNat ≤ 15 → Skips (.skpVx x) (s.keypad.getLsbD (s.reg x).toNat = true) s ∧
      Skips (.sknpVx x) (s.keypad.getLsbD (s.reg x).toNat = false) s) ∧
    (15 < (s.reg x).toNat → RaisesInvalidOpcode (.skpVx x) s ∧ RaisesInvalidOpcode (.sknpVx x) s)

/-- LD Vx, K completes when it waits and a key is newly pressed: V[x] is the lowest such key, the wait is over
and PC + 2 (decision D11). -/
def Obligations.KeyWaitCompletesOnANewKey : Prop :=
  ∀ (s : State) (x : RegIx) (k : Nat), s.wait = true → k < 16 → s.keypad.getLsbD k = true →
    s.keyPrev.getLsbD k = false → (∀ j < k, s.keypad.getLsbD j = true → s.keyPrev.getLsbD j = true) →
    ∃ t, exec (.ldVxK x) s = .next t ∧ (t.reg x).toNat = k ∧ (∀ r, r ≠ x → t.reg r = s.reg r) ∧
      t.wait = false ∧ t.waitX = 0 ∧ t.keyPrev = 0 ∧ t.pc = s.pc + 2 ∧
      t = { s with v := t.v, pc := t.pc, wait := false, waitX := 0, keyPrev := 0 } ∧ SameMemory s t

/-- LD Vx, K first arms the wait with the keys held, whatever they are, and then, while no key is newly
pressed, only samples the keypad; PC is held in both (decision D11). -/
def Obligations.KeyWaitHoldsPc : Prop :=
  ∀ (s : State) (x : RegIx),
    (s.wait = false → exec (.ldVxK x) s = .next { s with wait := true, waitX := x, keyPrev := s.keypad }) ∧
    (s.wait = true → (∀ k < 16, s.keypad.getLsbD k = true → s.keyPrev.getLsbD k = true) →
      exec (.ldVxK x) s = .next { s with keyPrev := s.keypad })

/-- LD DT, Vx (R102) and LD ST, Vx (R103) set their timer, advance PC by 2 and change nothing else. The port
ST_OUT shows ST (R24, decision D26); that it is a function of the state is log entry 17. -/
def Obligations.SettingTimers : Prop :=
  ∀ (s : State) (x : RegIx),
    (∃ t, exec (.ldDtVx x) s = .next t ∧ t.dt = s.reg x ∧ t.pc = s.pc + 2 ∧
      t = { s with dt := t.dt, pc := t.pc } ∧ SameMemory s t) ∧
    (∃ t, exec (.ldStVx x) s = .next t ∧ t.st = s.reg x ∧ stOut t = s.reg x ∧ t.pc = s.pc + 2 ∧
      t = { s with st := t.st, pc := t.pc } ∧ SameMemory s t)

/-! ## Host commands -/

/-- KEYPAD sets the keypad and nothing else; RND appends one byte to the random input and nothing else (R16, R21,
R24). That the supplied bytes wait in a list is this model's choice (log entry 3). -/
def Obligations.InputCommandsSetTheirInputAlone : Prop :=
  ∀ (s : State) (keys : Keys) (b : Byte),
    (∃ t, perform (.keypad keys) s = .next t ∧ t.keypad = keys ∧ t = { s with keypad := t.keypad } ∧
      SameMemory s t) ∧
    (∃ t, perform (.random b) s = .next t ∧ t.rnd = s.rnd ++ [b] ∧ t = { s with rnd := t.rnd } ∧ SameMemory s t)

/-- No command sees the commands that wait behind it, and it leaves them as they are (R24, R37; log entry 5 for
the waiting commands). -/
def Obligations.CommandsToComeAreNotSeen : Prop :=
  ∀ (c : Command) (s : State) (l : List Command),
    perform c { s with inbox := l } = mapNext (fun t => { t with inbox := l }) (perform c s)

/-- TICK decrements both timers, stopping at zero, in every state, halted or waiting too, and changes nothing
else. -/
def Obligations.TickDecrementsBothTimers : Prop :=
  ∀ s : State, ∃ t, perform .tick s = .next t ∧ t.dt.toNat = s.dt.toNat - 1 ∧ t.st.toNat = s.st.toNat - 1 ∧
    t = { s with dt := t.dt, st := t.st }

/-- RESUME(pc) is accepted only while HALTED is 1: it clears the fault status and sets PC, and changes nothing
else; otherwise it is refused and changes nothing (decision D14). The responses accepted and refused are those of
the vectors H1 and H2 (log entry 14). -/
def Obligations.ResumeOnlyWhileHalted : Prop :=
  ∀ (s : State) (pc : Word),
    (s.fault.halted = true → respond (.resume pc) s = .resumed true ∧
      perform (.resume pc) s = .next { s with fault := FaultStatus.clear, pc := pc }) ∧
    (s.fault.halted = false → respond (.resume pc) s = .resumed false ∧ perform (.resume pc) s = .next s)

/-- LOAD: at most 3584 bytes, once, before the first cycle; a longer or a late one changes nothing
(decision D16; log entry 6 for the field loadable). The response of a late LOAD, a third beside the two R24
lists, is that of vector H9 (log entry 14); that a second LOAD before the first cycle is refused too is the model's reading
(log entry 6). -/
def Obligations.LoadOnceBeforeTheFirstCycle : Prop :=
  ∀ (s : State) (bytes : List Byte), s.memWf →
    (s.loadable = true → bytes.length ≤ 3584 → respond (.load bytes) s = .loaded .ok ∧
      ∃ t, perform (.load bytes) s = .next t ∧
        (∀ a, t.byte a =
          if 0x200 ≤ a ∧ a < 0x200 + bytes.length then bytes.getD (a - 0x200) 0 else s.byte a) ∧
        t = { s with mem := t.mem, loadable := false }) ∧
    (s.loadable = true → 3584 < bytes.length → respond (.load bytes) s = .loaded .programTooLarge ∧
      perform (.load bytes) s = .next s) ∧
    (s.loadable = false → respond (.load bytes) s = .loaded .refused ∧ perform (.load bytes) s = .next s)

/-- RESUME at the recorded PC and a further cycle raise the same fault again, when the faulting instruction left
the two bytes at PC as they were (decision D14; a partial store can overwrite the instruction itself, see log
entry 8). -/
def Obligations.RetryFaultsAgain : Prop :=
  ∀ s t : State, s.fault.halted = false → cycle s = .next t → t.fault.halted = true →
    t.byte s.pc.toNat = s.byte s.pc.toNat → t.byte (s.pc.toNat + 1) = s.byte (s.pc.toNat + 1) →
    ∃ u, cycle (resume t.fault.pc t) = .next u ∧ u.fault = t.fault

/-- An idle core stays as it is: a further cycle is a jump to the same address (decision D23). -/
def Obligations.IdleStaysIdle : Prop :=
  ∀ s : State, s.Idle → ∃ t, cycle s = .next t ∧ t = { s with loadable := false } ∧ t.Idle

/-! ## Rules over all instructions -/

/-- An instruction raises a fault exactly when R104 says, with the kind, word, PC and address of R105, and
then changes nothing but what R106 lists: the rows DRW drew, the bytes LD B and LD [I] stored and the registers
LD Vx, [I] loaded before the failing access. One that raises none leaves the fault status alone (decisions D5,
D12, D13 and D28). -/
def Obligations.InstructionsFaultExactlyAsListed : Prop :=
  ∀ (i : Instr) (s t : State), exec i s = .next t →
    (faultOf i s = none → t.fault = s.fault) ∧
    ∀ code addr, faultOf i s = some (code, addr) →
      Records t.fault code s.pc (some (encode i)) addr ∧
      ({ t with fault := s.fault, fb := s.fb, mem := s.mem, v := s.v } = s) ∧
      ((∀ x y n, i ≠ .drwVxVyNibble x y n) → t.fb = s.fb) ∧
      (∀ x y n, i = .drwVxVyNibble x y n → Drawn s t x y n) ∧
      ((∀ x, i ≠ .ldBVx x) → (∀ x, i ≠ .ldMemVx x) → t.mem = s.mem) ∧
      (∀ x, i = .ldBVx x → s.memWf → Stored s t s.i (bcdDigits (s.reg x))) ∧
      (∀ x, i = .ldMemVx x → s.memWf → Stored s t s.i (s.regsUpTo x)) ∧
      ((∀ x, i ≠ .ldVxMem x) → t.v = s.v) ∧
      (∀ x, i = .ldVxMem x → Loaded s t x)

/-- The next PC of every instruction: PC + 2, PC + 4 on a skip, the target, PC held by a waiting LD Vx, K, and
PC unchanged on a fault (R51). The targets and conditions are those of RET (decision D1), LD Vx, K (decision
D11) and the other instructions' own rules, and the faults those of R104, DRW's by decision D7. -/
def Obligations.EveryInstructionSetsPcByItsClass : Prop :=
  ∀ (i : Instr) (s t : State), exec i s = .next t →
    (faultOf i s = none → t.pc = nextPc i s) ∧ (faultOf i s ≠ none → t.pc = s.pc)

/-- Each element of the state is written only by the instructions the rules name, and the keypad, the host's
commands, LOAD's gate and the parameters by none. -/
def Obligations.OnlyTheNamedInstructionsWrite : Prop :=
  ∀ (i : Instr) (s t : State), exec i s = .next t →
    (∀ k, writesReg i k = false → t.reg k = s.reg k) ∧
    (writesI i = false → t.i = s.i) ∧
    (writesStack i = false → t.sp = s.sp ∧ t.stack = s.stack) ∧
    (writesDt i = false → t.dt = s.dt) ∧ (writesSt i = false → t.st = s.st) ∧
    (writesMem i = false → t.mem = s.mem ∧ SameMemory s t) ∧
    (writesFb i = false → t.fb = s.fb) ∧
    (writesWait i = false → t.wait = s.wait ∧ t.waitX = s.waitX ∧ t.keyPrev = s.keyPrev) ∧
    (consumesRandom i = false → t.rnd = s.rnd ∧ t.draws = s.draws) ∧
    t.keypad = s.keypad ∧ t.loadable = s.loadable ∧ t.inbox = s.inbox ∧ t.params = s.params

/-- The keypad is read only by SKP, SKNP and LD Vx, K, and the random input only by RND: for every other
instruction a different input makes no difference (decisions D20 and D21). -/
def Obligations.InputsAreReadOnlyByTheirInstructions : Prop :=
  ∀ (i : Instr) (s : State) (keys : Keys) (r : List Byte) (d : Nat),
    (readsKeypad i = false →
      exec i { s with keypad := keys } = mapNext (fun t => { t with keypad := keys }) (exec i s)) ∧
    (consumesRandom i = false →
      exec i { s with rnd := r, draws := d } = mapNext (fun t => { t with rnd := r, draws := d }) (exec i s))

/-- No instruction reads ST, and none but DRW reads the framebuffer. -/
def Obligations.OutputsAreNotReadBack : Prop :=
  ∀ (i : Instr) (s : State) (b : Byte) (f : Framebuffer),
    (writesSt i = false → exec i { s with st := b } = mapNext (fun t => { t with st := b }) (exec i s)) ∧
    (writesSt i = true → exec i { s with st := b } = exec i s) ∧
    (writesFb i = false → exec i { s with fb := f } = mapNext (fun t => { t with fb := f }) (exec i s)) ∧
    (i = .cls → exec i { s with fb := f } = exec i s)

/-- A timer tick and an instruction that uses no timer can be exchanged: the tick acts on the timers alone
and no such instruction sees it. -/
def Obligations.TickCommutesWithOtherInstructions : Prop :=
  ∀ (i : Instr) (s t : State), usesTimers i = false → exec i s = .next t → exec i (tick s) = .next (tick t)
end

