-- ==== Sys2Proof/Laws/Decode.lean ====
section
/-! SUPPORT. The fields of a word put together by each format, and a word put together from its own fields
(spec/30_encoding.md R43, R44). -/

namespace Sys2Proof

theorem append_toNat {n m : Nat} (a : BitVec n) (b : BitVec m) : (a ++ b).toNat = a.toNat * 2 ^ m + b.toNat := by
  rw [BitVec.toNat_append, ← Nat.shiftLeft_add_eq_or_of_lt b.isLt, Nat.shiftLeft_eq]

theorem formatA_toNat (c : Nibble) (nnn : Addr12) : (formatA c nnn).toNat = c.toNat * 4096 + nnn.toNat :=
  append_toNat c nnn

theorem formatXB_toNat (c : Nibble) (x : RegIx) (nn : Byte) :
    (formatXB c x nn).toNat = (c.toNat * 16 + x.toNat) * 256 + nn.toNat :=
  (append_toNat (c ++ x) nn).trans (by rw [append_toNat c x]; norm_num)

theorem formatXYN_toNat (c : Nibble) (x y : RegIx) (n : Nibble) :
    (formatXYN c x y n).toNat = ((c.toNat * 16 + x.toNat) * 16 + y.toNat) * 16 + n.toNat :=
  (append_toNat (c ++ x ++ y) n).trans (by rw [append_toNat (c ++ x) y, append_toNat c x]; norm_num)

theorem joinBytes_toNat (hi lo : Byte) : (joinBytes hi lo).toNat = hi.toNat * 256 + lo.toNat :=
  append_toNat hi lo

theorem extract_toNat (w : Word) (start len : Nat) :
    (w.extractLsb' start len).toNat = w.toNat / 2 ^ start % 2 ^ len := by
  rw [BitVec.extractLsb'_toNat, Nat.shiftRight_eq_div_pow]

theorem fieldC_toNat (w : Word) : (fieldC w).toNat = w.toNat / 4096 % 16 := extract_toNat w 12 4
theorem fieldX_toNat (w : Word) : (fieldX w).toNat = w.toNat / 256 % 16 := extract_toNat w 8 4
theorem fieldY_toNat (w : Word) : (fieldY w).toNat = w.toNat / 16 % 16 := extract_toNat w 4 4
theorem fieldN_toNat (w : Word) : (fieldN w).toNat = w.toNat % 16 := by
  rw [fieldN, extract_toNat, Nat.pow_zero, Nat.div_one]; norm_num
theorem fieldNN_toNat (w : Word) : (fieldNN w).toNat = w.toNat % 256 := by
  rw [fieldNN, extract_toNat, Nat.pow_zero, Nat.div_one]; norm_num
theorem fieldNNN_toNat (w : Word) : (fieldNNN w).toNat = w.toNat % 4096 := by
  rw [fieldNNN, extract_toNat, Nat.pow_zero, Nat.div_one]; norm_num
theorem highByte_toNat (w : Word) : (highByte w).toNat = w.toNat / 256 % 256 := extract_toNat w 8 8
theorem lowByte_toNat (w : Word) : (lowByte w).toNat = w.toNat % 256 := by
  rw [lowByte, extract_toNat, Nat.pow_zero, Nat.div_one]; norm_num

/-! ## The fields of each format -/

section fields
variable (c : Nibble) (x y : RegIx) (n : Nibble) (nn : Byte) (nnn : Addr12)

@[simp] theorem fieldC_formatA : fieldC (formatA c nnn) = c := by
  have := c.isLt; have := nnn.isLt
  apply BitVec.eq_of_toNat_eq; rw [fieldC_toNat, formatA_toNat]; omega

@[simp] theorem fieldNNN_formatA : fieldNNN (formatA c nnn) = nnn := by
  have := nnn.isLt
  apply BitVec.eq_of_toNat_eq; rw [fieldNNN_toNat, formatA_toNat]; omega

@[simp] theorem fieldC_formatXB : fieldC (formatXB c x nn) = c := by
  have := c.isLt; have := x.isLt; have := nn.isLt
  apply BitVec.eq_of_toNat_eq; rw [fieldC_toNat, formatXB_toNat]; omega

@[simp] theorem fieldX_formatXB : fieldX (formatXB c x nn) = x := by
  have := x.isLt; have := nn.isLt
  apply BitVec.eq_of_toNat_eq; rw [fieldX_toNat, formatXB_toNat]; omega

@[simp] theorem fieldNN_formatXB : fieldNN (formatXB c x nn) = nn := by
  have := nn.isLt
  apply BitVec.eq_of_toNat_eq; rw [fieldNN_toNat, formatXB_toNat]; omega

@[simp] theorem fieldC_formatXYN : fieldC (formatXYN c x y n) = c := by
  have := c.isLt; have := x.isLt; have := y.isLt; have := n.isLt
  apply BitVec.eq_of_toNat_eq; rw [fieldC_toNat, formatXYN_toNat]; omega

@[simp] theorem fieldX_formatXYN : fieldX (formatXYN c x y n) = x := by
  have := x.isLt; have := y.isLt; have := n.isLt
  apply BitVec.eq_of_toNat_eq; rw [fieldX_toNat, formatXYN_toNat]; omega

@[simp] theorem fieldY_formatXYN : fieldY (formatXYN c x y n) = y := by
  have := y.isLt; have := n.isLt
  apply BitVec.eq_of_toNat_eq; rw [fieldY_toNat, formatXYN_toNat]; omega

@[simp] theorem fieldN_formatXYN : fieldN (formatXYN c x y n) = n := by
  have := n.isLt
  apply BitVec.eq_of_toNat_eq; rw [fieldN_toNat, formatXYN_toNat]; omega

end fields

/-! ## A word is its fields -/

theorem formatA_fields (w : Word) : formatA (fieldC w) (fieldNNN w) = w := by
  have := w.isLt
  apply BitVec.eq_of_toNat_eq; rw [formatA_toNat, fieldC_toNat, fieldNNN_toNat]; omega

theorem formatXB_fields (w : Word) : formatXB (fieldC w) (fieldX w) (fieldNN w) = w := by
  have := w.isLt
  apply BitVec.eq_of_toNat_eq; rw [formatXB_toNat, fieldC_toNat, fieldX_toNat, fieldNN_toNat]; omega

theorem formatXYN_fields (w : Word) : formatXYN (fieldC w) (fieldX w) (fieldY w) (fieldN w) = w := by
  have := w.isLt
  apply BitVec.eq_of_toNat_eq
  rw [formatXYN_toNat, fieldC_toNat, fieldX_toNat, fieldY_toNat, fieldN_toNat]; omega

@[simp] theorem joinBytes_bytes (w : Word) : joinBytes (highByte w) (lowByte w) = w := by
  have := w.isLt
  apply BitVec.eq_of_toNat_eq; rw [joinBytes_toNat, highByte_toNat, lowByte_toNat]; omega

@[simp] theorem highByte_joinBytes (hi lo : Byte) : highByte (joinBytes hi lo) = hi := by
  have := hi.isLt; have := lo.isLt
  apply BitVec.eq_of_toNat_eq; rw [highByte_toNat, joinBytes_toNat]; omega

@[simp] theorem lowByte_joinBytes (hi lo : Byte) : lowByte (joinBytes hi lo) = lo := by
  have := lo.isLt
  apply BitVec.eq_of_toNat_eq; rw [lowByte_toNat, joinBytes_toNat]; omega

end Sys2Proof
end

