-- ==== Sys2Proof/Laws/State.lean ====
section
/-! SUPPORT. One lemma per field of State per named update, and what V[x] reads after each update, so that
no proof unfolds a record update. -/

namespace Sys2Proof.Machine

/-! ## The widths of I and FAULT_ADDR (R5, R20) -/

/-- I can hold every address and the sums just above them. -/
theorem le_two_pow_iWidth {p : Params} (h : p.Ok) : 8192 ≤ 2 ^ p.iWidth := by
  simpa using Nat.pow_le_pow_right (n := 2) (by decide) h

/-- FAULT_ADDR can hold every value of PC. -/
theorem le_two_pow_faultAddrWidth (p : Params) : 65536 ≤ 2 ^ p.faultAddrWidth := by
  simpa [Params.faultAddrWidth] using Nat.pow_le_pow_right (n := 2) (by decide) (Nat.le_max_left 16 p.iWidth)

/-- FAULT_ADDR can hold every value of I. -/
theorem two_pow_iWidth_le (p : Params) : 2 ^ p.iWidth ≤ 2 ^ p.faultAddrWidth :=
  Nat.pow_le_pow_right (by decide) (Nat.le_max_right 16 p.iWidth)

variable (s : State)

/-! ## s.setReg x b -/

@[simp] theorem setReg_v (x : RegIx) (b : Byte) : (s.setReg x b).v = s.v.set x.toNat b x.isLt := rfl
@[simp] theorem setReg_i (x : RegIx) (b : Byte) : (s.setReg x b).i = s.i := rfl
@[simp] theorem setReg_pc (x : RegIx) (b : Byte) : (s.setReg x b).pc = s.pc := rfl
@[simp] theorem setReg_sp (x : RegIx) (b : Byte) : (s.setReg x b).sp = s.sp := rfl
@[simp] theorem setReg_stack (x : RegIx) (b : Byte) : (s.setReg x b).stack = s.stack := rfl
@[simp] theorem setReg_dt (x : RegIx) (b : Byte) : (s.setReg x b).dt = s.dt := rfl
@[simp] theorem setReg_st (x : RegIx) (b : Byte) : (s.setReg x b).st = s.st := rfl
@[simp] theorem setReg_mem (x : RegIx) (b : Byte) : (s.setReg x b).mem = s.mem := rfl
@[simp] theorem setReg_fb (x : RegIx) (b : Byte) : (s.setReg x b).fb = s.fb := rfl
@[simp] theorem setReg_keypad (x : RegIx) (b : Byte) : (s.setReg x b).keypad = s.keypad := rfl
@[simp] theorem setReg_wait (x : RegIx) (b : Byte) : (s.setReg x b).wait = s.wait := rfl
@[simp] theorem setReg_waitX (x : RegIx) (b : Byte) : (s.setReg x b).waitX = s.waitX := rfl
@[simp] theorem setReg_keyPrev (x : RegIx) (b : Byte) : (s.setReg x b).keyPrev = s.keyPrev := rfl
@[simp] theorem setReg_fault (x : RegIx) (b : Byte) : (s.setReg x b).fault = s.fault := rfl
@[simp] theorem setReg_rnd (x : RegIx) (b : Byte) : (s.setReg x b).rnd = s.rnd := rfl
@[simp] theorem setReg_draws (x : RegIx) (b : Byte) : (s.setReg x b).draws = s.draws := rfl
@[simp] theorem setReg_loadable (x : RegIx) (b : Byte) : (s.setReg x b).loadable = s.loadable := rfl
@[simp] theorem setReg_params (x : RegIx) (b : Byte) : (s.setReg x b).params = s.params := rfl
@[simp] theorem setReg_inbox (x : RegIx) (b : Byte) : (s.setReg x b).inbox = s.inbox := rfl

/-! ## s.advance n -/

@[simp] theorem advance_v (n : Word) : (s.advance n).v = s.v := rfl
@[simp] theorem advance_i (n : Word) : (s.advance n).i = s.i := rfl
@[simp] theorem advance_pc (n : Word) : (s.advance n).pc = s.pc + n := rfl
@[simp] theorem advance_sp (n : Word) : (s.advance n).sp = s.sp := rfl
@[simp] theorem advance_stack (n : Word) : (s.advance n).stack = s.stack := rfl
@[simp] theorem advance_dt (n : Word) : (s.advance n).dt = s.dt := rfl
@[simp] theorem advance_st (n : Word) : (s.advance n).st = s.st := rfl
@[simp] theorem advance_mem (n : Word) : (s.advance n).mem = s.mem := rfl
@[simp] theorem advance_fb (n : Word) : (s.advance n).fb = s.fb := rfl
@[simp] theorem advance_keypad (n : Word) : (s.advance n).keypad = s.keypad := rfl
@[simp] theorem advance_wait (n : Word) : (s.advance n).wait = s.wait := rfl
@[simp] theorem advance_waitX (n : Word) : (s.advance n).waitX = s.waitX := rfl
@[simp] theorem advance_keyPrev (n : Word) : (s.advance n).keyPrev = s.keyPrev := rfl
@[simp] theorem advance_fault (n : Word) : (s.advance n).fault = s.fault := rfl
@[simp] theorem advance_rnd (n : Word) : (s.advance n).rnd = s.rnd := rfl
@[simp] theorem advance_draws (n : Word) : (s.advance n).draws = s.draws := rfl
@[simp] theorem advance_loadable (n : Word) : (s.advance n).loadable = s.loadable := rfl
@[simp] theorem advance_params (n : Word) : (s.advance n).params = s.params := rfl
@[simp] theorem advance_inbox (n : Word) : (s.advance n).inbox = s.inbox := rfl

/-! ## s.skipIf c -/

@[simp] theorem skipIf_v (c : Bool) : (s.skipIf c).v = s.v := by cases c <;> rfl
@[simp] theorem skipIf_i (c : Bool) : (s.skipIf c).i = s.i := by cases c <;> rfl
@[simp] theorem skipIf_pc (c : Bool) : (s.skipIf c).pc = if c then s.pc + 4 else s.pc + 2 := by cases c <;> rfl
@[simp] theorem skipIf_sp (c : Bool) : (s.skipIf c).sp = s.sp := by cases c <;> rfl
@[simp] theorem skipIf_stack (c : Bool) : (s.skipIf c).stack = s.stack := by cases c <;> rfl
@[simp] theorem skipIf_dt (c : Bool) : (s.skipIf c).dt = s.dt := by cases c <;> rfl
@[simp] theorem skipIf_st (c : Bool) : (s.skipIf c).st = s.st := by cases c <;> rfl
@[simp] theorem skipIf_mem (c : Bool) : (s.skipIf c).mem = s.mem := by cases c <;> rfl
@[simp] theorem skipIf_fb (c : Bool) : (s.skipIf c).fb = s.fb := by cases c <;> rfl
@[simp] theorem skipIf_keypad (c : Bool) : (s.skipIf c).keypad = s.keypad := by cases c <;> rfl
@[simp] theorem skipIf_wait (c : Bool) : (s.skipIf c).wait = s.wait := by cases c <;> rfl
@[simp] theorem skipIf_waitX (c : Bool) : (s.skipIf c).waitX = s.waitX := by cases c <;> rfl
@[simp] theorem skipIf_keyPrev (c : Bool) : (s.skipIf c).keyPrev = s.keyPrev := by cases c <;> rfl
@[simp] theorem skipIf_fault (c : Bool) : (s.skipIf c).fault = s.fault := by cases c <;> rfl
@[simp] theorem skipIf_rnd (c : Bool) : (s.skipIf c).rnd = s.rnd := by cases c <;> rfl
@[simp] theorem skipIf_draws (c : Bool) : (s.skipIf c).draws = s.draws := by cases c <;> rfl
@[simp] theorem skipIf_loadable (c : Bool) : (s.skipIf c).loadable = s.loadable := by cases c <;> rfl
@[simp] theorem skipIf_params (c : Bool) : (s.skipIf c).params = s.params := by cases c <;> rfl
@[simp] theorem skipIf_inbox (c : Bool) : (s.skipIf c).inbox = s.inbox := by cases c <;> rfl

/-! ## s.setFlag c -/

@[simp] theorem setFlag_v (c : Bool) : (s.setFlag c).v = s.v.set flagIx.toNat (bitByte c) flagIx.isLt := rfl
@[simp] theorem setFlag_i (c : Bool) : (s.setFlag c).i = s.i := rfl
@[simp] theorem setFlag_pc (c : Bool) : (s.setFlag c).pc = s.pc := rfl
@[simp] theorem setFlag_sp (c : Bool) : (s.setFlag c).sp = s.sp := rfl
@[simp] theorem setFlag_stack (c : Bool) : (s.setFlag c).stack = s.stack := rfl
@[simp] theorem setFlag_dt (c : Bool) : (s.setFlag c).dt = s.dt := rfl
@[simp] theorem setFlag_st (c : Bool) : (s.setFlag c).st = s.st := rfl
@[simp] theorem setFlag_mem (c : Bool) : (s.setFlag c).mem = s.mem := rfl
@[simp] theorem setFlag_fb (c : Bool) : (s.setFlag c).fb = s.fb := rfl
@[simp] theorem setFlag_keypad (c : Bool) : (s.setFlag c).keypad = s.keypad := rfl
@[simp] theorem setFlag_wait (c : Bool) : (s.setFlag c).wait = s.wait := rfl
@[simp] theorem setFlag_waitX (c : Bool) : (s.setFlag c).waitX = s.waitX := rfl
@[simp] theorem setFlag_keyPrev (c : Bool) : (s.setFlag c).keyPrev = s.keyPrev := rfl
@[simp] theorem setFlag_fault (c : Bool) : (s.setFlag c).fault = s.fault := rfl
@[simp] theorem setFlag_rnd (c : Bool) : (s.setFlag c).rnd = s.rnd := rfl
@[simp] theorem setFlag_draws (c : Bool) : (s.setFlag c).draws = s.draws := rfl
@[simp] theorem setFlag_loadable (c : Bool) : (s.setFlag c).loadable = s.loadable := rfl
@[simp] theorem setFlag_params (c : Bool) : (s.setFlag c).params = s.params := rfl
@[simp] theorem setFlag_inbox (c : Bool) : (s.setFlag c).inbox = s.inbox := rfl

/-! ## s.writeFlagged x r c -/

@[simp] theorem writeFlagged_v (x : RegIx) (r : Byte) (c : Bool) : (s.writeFlagged x r c).v = (s.v.set x.toNat r x.isLt).set flagIx.toNat (bitByte c) flagIx.isLt := rfl
@[simp] theorem writeFlagged_i (x : RegIx) (r : Byte) (c : Bool) : (s.writeFlagged x r c).i = s.i := rfl
@[simp] theorem writeFlagged_pc (x : RegIx) (r : Byte) (c : Bool) : (s.writeFlagged x r c).pc = s.pc + 2 := rfl
@[simp] theorem writeFlagged_sp (x : RegIx) (r : Byte) (c : Bool) : (s.writeFlagged x r c).sp = s.sp := rfl
@[simp] theorem writeFlagged_stack (x : RegIx) (r : Byte) (c : Bool) : (s.writeFlagged x r c).stack = s.stack := rfl
@[simp] theorem writeFlagged_dt (x : RegIx) (r : Byte) (c : Bool) : (s.writeFlagged x r c).dt = s.dt := rfl
@[simp] theorem writeFlagged_st (x : RegIx) (r : Byte) (c : Bool) : (s.writeFlagged x r c).st = s.st := rfl
@[simp] theorem writeFlagged_mem (x : RegIx) (r : Byte) (c : Bool) : (s.writeFlagged x r c).mem = s.mem := rfl
@[simp] theorem writeFlagged_fb (x : RegIx) (r : Byte) (c : Bool) : (s.writeFlagged x r c).fb = s.fb := rfl
@[simp] theorem writeFlagged_keypad (x : RegIx) (r : Byte) (c : Bool) : (s.writeFlagged x r c).keypad = s.keypad := rfl
@[simp] theorem writeFlagged_wait (x : RegIx) (r : Byte) (c : Bool) : (s.writeFlagged x r c).wait = s.wait := rfl
@[simp] theorem writeFlagged_waitX (x : RegIx) (r : Byte) (c : Bool) : (s.writeFlagged x r c).waitX = s.waitX := rfl
@[simp] theorem writeFlagged_keyPrev (x : RegIx) (r : Byte) (c : Bool) : (s.writeFlagged x r c).keyPrev = s.keyPrev := rfl
@[simp] theorem writeFlagged_fault (x : RegIx) (r : Byte) (c : Bool) : (s.writeFlagged x r c).fault = s.fault := rfl
@[simp] theorem writeFlagged_rnd (x : RegIx) (r : Byte) (c : Bool) : (s.writeFlagged x r c).rnd = s.rnd := rfl
@[simp] theorem writeFlagged_draws (x : RegIx) (r : Byte) (c : Bool) : (s.writeFlagged x r c).draws = s.draws := rfl
@[simp] theorem writeFlagged_loadable (x : RegIx) (r : Byte) (c : Bool) : (s.writeFlagged x r c).loadable = s.loadable := rfl
@[simp] theorem writeFlagged_params (x : RegIx) (r : Byte) (c : Bool) : (s.writeFlagged x r c).params = s.params := rfl
@[simp] theorem writeFlagged_inbox (x : RegIx) (r : Byte) (c : Bool) : (s.writeFlagged x r c).inbox = s.inbox := rfl

/-! ## s.consumeRandom -/

@[simp] theorem consumeRandom_v : (s.consumeRandom).v = s.v := rfl
@[simp] theorem consumeRandom_i : (s.consumeRandom).i = s.i := rfl
@[simp] theorem consumeRandom_pc : (s.consumeRandom).pc = s.pc := rfl
@[simp] theorem consumeRandom_sp : (s.consumeRandom).sp = s.sp := rfl
@[simp] theorem consumeRandom_stack : (s.consumeRandom).stack = s.stack := rfl
@[simp] theorem consumeRandom_dt : (s.consumeRandom).dt = s.dt := rfl
@[simp] theorem consumeRandom_st : (s.consumeRandom).st = s.st := rfl
@[simp] theorem consumeRandom_mem : (s.consumeRandom).mem = s.mem := rfl
@[simp] theorem consumeRandom_fb : (s.consumeRandom).fb = s.fb := rfl
@[simp] theorem consumeRandom_keypad : (s.consumeRandom).keypad = s.keypad := rfl
@[simp] theorem consumeRandom_wait : (s.consumeRandom).wait = s.wait := rfl
@[simp] theorem consumeRandom_waitX : (s.consumeRandom).waitX = s.waitX := rfl
@[simp] theorem consumeRandom_keyPrev : (s.consumeRandom).keyPrev = s.keyPrev := rfl
@[simp] theorem consumeRandom_fault : (s.consumeRandom).fault = s.fault := rfl
@[simp] theorem consumeRandom_rnd : (s.consumeRandom).rnd = s.rnd.tail := rfl
@[simp] theorem consumeRandom_draws : (s.consumeRandom).draws = s.draws + 1 := rfl
@[simp] theorem consumeRandom_loadable : (s.consumeRandom).loadable = s.loadable := rfl
@[simp] theorem consumeRandom_params : (s.consumeRandom).params = s.params := rfl
@[simp] theorem consumeRandom_inbox : (s.consumeRandom).inbox = s.inbox := rfl

/-! ## s.closeLoad -/

@[simp] theorem closeLoad_v : (s.closeLoad).v = s.v := rfl
@[simp] theorem closeLoad_i : (s.closeLoad).i = s.i := rfl
@[simp] theorem closeLoad_pc : (s.closeLoad).pc = s.pc := rfl
@[simp] theorem closeLoad_sp : (s.closeLoad).sp = s.sp := rfl
@[simp] theorem closeLoad_stack : (s.closeLoad).stack = s.stack := rfl
@[simp] theorem closeLoad_dt : (s.closeLoad).dt = s.dt := rfl
@[simp] theorem closeLoad_st : (s.closeLoad).st = s.st := rfl
@[simp] theorem closeLoad_mem : (s.closeLoad).mem = s.mem := rfl
@[simp] theorem closeLoad_fb : (s.closeLoad).fb = s.fb := rfl
@[simp] theorem closeLoad_keypad : (s.closeLoad).keypad = s.keypad := rfl
@[simp] theorem closeLoad_wait : (s.closeLoad).wait = s.wait := rfl
@[simp] theorem closeLoad_waitX : (s.closeLoad).waitX = s.waitX := rfl
@[simp] theorem closeLoad_keyPrev : (s.closeLoad).keyPrev = s.keyPrev := rfl
@[simp] theorem closeLoad_fault : (s.closeLoad).fault = s.fault := rfl
@[simp] theorem closeLoad_rnd : (s.closeLoad).rnd = s.rnd := rfl
@[simp] theorem closeLoad_draws : (s.closeLoad).draws = s.draws := rfl
@[simp] theorem closeLoad_loadable : (s.closeLoad).loadable = false := rfl
@[simp] theorem closeLoad_params : (s.closeLoad).params = s.params := rfl
@[simp] theorem closeLoad_inbox : (s.closeLoad).inbox = s.inbox := rfl

/-! ## tick s -/

@[simp] theorem tick_v : (tick s).v = s.v := rfl
@[simp] theorem tick_i : (tick s).i = s.i := rfl
@[simp] theorem tick_pc : (tick s).pc = s.pc := rfl
@[simp] theorem tick_sp : (tick s).sp = s.sp := rfl
@[simp] theorem tick_stack : (tick s).stack = s.stack := rfl
@[simp] theorem tick_dt : (tick s).dt = tickTimer s.dt := rfl
@[simp] theorem tick_st : (tick s).st = tickTimer s.st := rfl
@[simp] theorem tick_mem : (tick s).mem = s.mem := rfl
@[simp] theorem tick_fb : (tick s).fb = s.fb := rfl
@[simp] theorem tick_keypad : (tick s).keypad = s.keypad := rfl
@[simp] theorem tick_wait : (tick s).wait = s.wait := rfl
@[simp] theorem tick_waitX : (tick s).waitX = s.waitX := rfl
@[simp] theorem tick_keyPrev : (tick s).keyPrev = s.keyPrev := rfl
@[simp] theorem tick_fault : (tick s).fault = s.fault := rfl
@[simp] theorem tick_rnd : (tick s).rnd = s.rnd := rfl
@[simp] theorem tick_draws : (tick s).draws = s.draws := rfl
@[simp] theorem tick_loadable : (tick s).loadable = s.loadable := rfl
@[simp] theorem tick_params : (tick s).params = s.params := rfl
@[simp] theorem tick_inbox : (tick s).inbox = s.inbox := rfl

/-! ## takeFault c w s -/

@[simp] theorem takeFault_v (c : FaultCause) (w : Option Word) : (takeFault c w s).v = s.v := rfl
@[simp] theorem takeFault_i (c : FaultCause) (w : Option Word) : (takeFault c w s).i = s.i := rfl
@[simp] theorem takeFault_pc (c : FaultCause) (w : Option Word) : (takeFault c w s).pc = s.pc := rfl
@[simp] theorem takeFault_sp (c : FaultCause) (w : Option Word) : (takeFault c w s).sp = s.sp := rfl
@[simp] theorem takeFault_stack (c : FaultCause) (w : Option Word) : (takeFault c w s).stack = s.stack := rfl
@[simp] theorem takeFault_dt (c : FaultCause) (w : Option Word) : (takeFault c w s).dt = s.dt := rfl
@[simp] theorem takeFault_st (c : FaultCause) (w : Option Word) : (takeFault c w s).st = s.st := rfl
@[simp] theorem takeFault_mem (c : FaultCause) (w : Option Word) : (takeFault c w s).mem = s.mem := rfl
@[simp] theorem takeFault_fb (c : FaultCause) (w : Option Word) : (takeFault c w s).fb = s.fb := rfl
@[simp] theorem takeFault_keypad (c : FaultCause) (w : Option Word) : (takeFault c w s).keypad = s.keypad := rfl
@[simp] theorem takeFault_wait (c : FaultCause) (w : Option Word) : (takeFault c w s).wait = s.wait := rfl
@[simp] theorem takeFault_waitX (c : FaultCause) (w : Option Word) : (takeFault c w s).waitX = s.waitX := rfl
@[simp] theorem takeFault_keyPrev (c : FaultCause) (w : Option Word) : (takeFault c w s).keyPrev = s.keyPrev := rfl
@[simp] theorem takeFault_rnd (c : FaultCause) (w : Option Word) : (takeFault c w s).rnd = s.rnd := rfl
@[simp] theorem takeFault_draws (c : FaultCause) (w : Option Word) : (takeFault c w s).draws = s.draws := rfl
@[simp] theorem takeFault_loadable (c : FaultCause) (w : Option Word) : (takeFault c w s).loadable = s.loadable := rfl
@[simp] theorem takeFault_params (c : FaultCause) (w : Option Word) : (takeFault c w s).params = s.params := rfl
@[simp] theorem takeFault_inbox (c : FaultCause) (w : Option Word) : (takeFault c w s).inbox = s.inbox := rfl

/-! ## The fault status after fault entry (R105) -/

@[simp] theorem takeFault_halted (c : FaultCause) (w : Option Word) : (takeFault c w s).fault.halted = true := rfl
@[simp] theorem takeFault_kind (c : FaultCause) (w : Option Word) : (takeFault c w s).fault.kind = c.kind := rfl
@[simp] theorem takeFault_faultPc (c : FaultCause) (w : Option Word) : (takeFault c w s).fault.pc = s.pc := rfl
@[simp] theorem takeFault_wordValid (c : FaultCause) (w : Option Word) :
    (takeFault c w s).fault.wordValid = w.isSome := rfl
@[simp] theorem takeFault_word (c : FaultCause) (w : Option Word) : (takeFault c w s).fault.word = w.getD 0 := rfl
@[simp] theorem takeFault_addrValid (c : FaultCause) (w : Option Word) :
    (takeFault c w s).fault.addrValid = c.addr.isSome := rfl
@[simp] theorem takeFault_addr (c : FaultCause) (w : Option Word) :
    (takeFault c w s).fault.addr = c.addr.getD 0 := rfl

/-! ## V[x] after each update -/

@[simp] theorem reg_setReg_same (x : RegIx) (b : Byte) : (s.setReg x b).reg x = b := by
  simp [State.reg]

theorem reg_setReg_ne {x k : RegIx} (b : Byte) (h : k ≠ x) : (s.setReg x b).reg k = s.reg k := by
  have h' : x.toNat ≠ k.toNat := fun e => h (BitVec.eq_of_toNat_eq e.symm)
  simp only [State.reg, setReg_v]
  exact Vector.getElem_set_ne _ _ h'

theorem reg_setReg (x k : RegIx) (b : Byte) : (s.setReg x b).reg k = if k = x then b else s.reg k := by
  by_cases h : k = x
  · subst h; simp
  · simp [h, reg_setReg_ne]

@[simp] theorem reg_advance (n : Word) (k : RegIx) : (s.advance n).reg k = s.reg k := rfl
@[simp] theorem reg_skipIf (c : Bool) (k : RegIx) : (s.skipIf c).reg k = s.reg k := by cases c <;> rfl
@[simp] theorem reg_consumeRandom (k : RegIx) : s.consumeRandom.reg k = s.reg k := rfl
@[simp] theorem reg_closeLoad (k : RegIx) : s.closeLoad.reg k = s.reg k := rfl
@[simp] theorem reg_tick (k : RegIx) : (tick s).reg k = s.reg k := rfl
@[simp] theorem reg_takeFault (c : FaultCause) (w : Option Word) (k : RegIx) :
    (takeFault c w s).reg k = s.reg k := rfl

/-- VF after a flag write is the flag (R8). -/
@[simp] theorem reg_setFlag_flag (c : Bool) : (s.setFlag c).reg flagIx = bitByte c := by
  simp [State.setFlag]

theorem reg_setFlag_ne {k : RegIx} (c : Bool) (h : k ≠ flagIx) : (s.setFlag c).reg k = s.reg k :=
  reg_setReg_ne s _ h

/-- The flag is written last: VF holds it whatever the destination (R8). -/
@[simp] theorem reg_writeFlagged_flag (x : RegIx) (r : Byte) (c : Bool) :
    (s.writeFlagged x r c).reg flagIx = bitByte c := by
  simp [State.writeFlagged]

theorem reg_writeFlagged_dest {x : RegIx} (r : Byte) (c : Bool) (h : x ≠ flagIx) :
    (s.writeFlagged x r c).reg x = r := by
  simp [State.writeFlagged, reg_setFlag_ne _ _ h]

theorem reg_writeFlagged_ne {x k : RegIx} (r : Byte) (c : Bool) (h : k ≠ flagIx) (hx : k ≠ x) :
    (s.writeFlagged x r c).reg k = s.reg k := by
  simp [State.writeFlagged, reg_setFlag_ne _ _ h, reg_setReg_ne _ _ hx]

/-- Two register files agree when every V[x] does. -/
theorem v_ext {s t : State} (h : ∀ k : RegIx, s.reg k = t.reg k) : s.v = t.v := by
  apply Vector.ext
  intro i hi
  have := h (BitVec.ofNat 4 i)
  simpa [State.reg, Nat.mod_eq_of_lt hi] using this

/-! ## MEM[a] after each update -/

@[simp] theorem byte_setReg (x : RegIx) (b : Byte) (a : Nat) : (s.setReg x b).byte a = s.byte a := rfl
@[simp] theorem byte_advance (n : Word) (a : Nat) : (s.advance n).byte a = s.byte a := rfl
@[simp] theorem byte_skipIf (c : Bool) (a : Nat) : (s.skipIf c).byte a = s.byte a := by cases c <;> rfl
@[simp] theorem byte_setFlag (c : Bool) (a : Nat) : (s.setFlag c).byte a = s.byte a := rfl
@[simp] theorem byte_writeFlagged (x : RegIx) (r : Byte) (c : Bool) (a : Nat) :
    (s.writeFlagged x r c).byte a = s.byte a := rfl
@[simp] theorem byte_consumeRandom (a : Nat) : s.consumeRandom.byte a = s.byte a := rfl
@[simp] theorem byte_closeLoad (a : Nat) : s.closeLoad.byte a = s.byte a := rfl
@[simp] theorem byte_tick (a : Nat) : (tick s).byte a = s.byte a := rfl
@[simp] theorem byte_takeFault (c : FaultCause) (w : Option Word) (a : Nat) :
    (takeFault c w s).byte a = s.byte a := rfl

/-- A byte read depends on the font and on memory alone. -/
theorem byte_congr {s t : State} (hp : s.params = t.params) (hm : s.mem = t.mem) (a : Nat) : s.byte a = t.byte a := by
  simp [State.byte, hp, hm]

/-! ## RESUME (R110) -/

theorem resume_of_halted {s : State} (pc : Word) (h : s.fault.halted = true) :
    resume pc s = { s with fault := FaultStatus.clear, pc := pc } := by simp [resume, h]

theorem resume_of_running {s : State} (pc : Word) (h : s.fault.halted = false) : resume pc s = s := by
  simp [resume, h]

end Sys2Proof.Machine
end

