-- ==== Sys2Proof/Laws/Memory.lean ====
section
/-! SUPPORT. The laws of memory: reading after writing, the canonical form, and what each access sequence
can do (spec/20_memory.md R29 to R36). -/

namespace Sys2Proof.Machine

variable {f : Font}

/-! ## One byte -/

theorem Memory.wf_nil : Memory.wf f [] := by simp [Memory.wf]

theorem Memory.read_of_lt {m : Memory} {a : Nat} (h : ∀ c ∈ m, a < c.1) :
    Memory.read f m a = Memory.resetByte f a := by
  induction m with
  | nil => rfl
  | cons c rest ih =>
    have hc := h c (by simp)
    have : c.1 ≠ a := by omega
    simp only [Memory.read, this, if_false]
    exact ih fun d hd => h d (by simp [hd])

theorem Memory.read_cell_append_same {rest : Memory} {a : Nat} (b : Byte) (h : ∀ c ∈ rest, a < c.1) :
    Memory.read f (Memory.cell f a b ++ rest) a = b := by
  unfold Memory.cell
  split
  · next hb => simpa [hb] using Memory.read_of_lt h
  · simp [Memory.read]

theorem Memory.read_cell_append_ne {rest : Memory} {a k : Nat} (b : Byte) (h : k ≠ a) :
    Memory.read f (Memory.cell f a b ++ rest) k = Memory.read f rest k := by
  unfold Memory.cell
  split
  · rfl
  · simp [Memory.read, Ne.symm h]

theorem Memory.wf_tail {c : Host.Cell} {m : Memory} (h : Memory.wf f (c :: m)) : Memory.wf f m := by
  obtain ⟨h1, h2⟩ := h
  exact ⟨(List.pairwise_cons.mp h1).2, fun d hd => h2 d (by simp [hd])⟩

/-- A read after a write to the same address gives the byte written (R36). -/
theorem Memory.read_write_same {m : Memory} (hm : Memory.wf f m) (a : Nat) (b : Byte) :
    Memory.read f (Memory.write f m a b) a = b := by
  induction m with
  | nil => simpa [Memory.write] using Memory.read_cell_append_same (rest := []) b (by simp)
  | cons c rest ih =>
    have hlt := (List.pairwise_cons.mp hm.1).1
    unfold Memory.write
    split
    · next h =>
      apply Memory.read_cell_append_same
      intro d hd
      rcases List.mem_cons.mp hd with rfl | hd
      · exact h
      · exact Nat.lt_trans h (hlt d hd)
    · split
      · next h =>
        apply Memory.read_cell_append_same
        intro d hd
        rw [h]
        exact hlt d hd
      · next h1 h2 =>
        have : c.1 ≠ a := fun e => h2 e.symm
        simp only [Memory.read, this, if_false]
        exact ih (Memory.wf_tail hm)

/-- A write leaves every other address as it was (R36). -/
theorem Memory.read_write_ne (m : Memory) {a k : Nat} (b : Byte) (h : k ≠ a) :
    Memory.read f (Memory.write f m a b) k = Memory.read f m k := by
  induction m with
  | nil => simpa [Memory.write] using Memory.read_cell_append_ne (rest := []) b h
  | cons c rest ih =>
    unfold Memory.write
    split
    · exact Memory.read_cell_append_ne b h
    · split
      · next h2 =>
        rw [Memory.read_cell_append_ne b h]
        have : c.1 ≠ k := by omega
        simp [Memory.read, this]
      · simp only [Memory.read, ih]

theorem Memory.read_write {m : Memory} (hm : Memory.wf f m) (a k : Nat) (b : Byte) :
    Memory.read f (Memory.write f m a b) k = if k = a then b else Memory.read f m k := by
  by_cases h : k = a
  · subst h; simp [Memory.read_write_same hm]
  · simp [h, Memory.read_write_ne]

theorem Memory.mem_cell {c : Host.Cell} {a : Nat} {b : Byte} (h : c ∈ Memory.cell f a b) :
    c = (a, b) ∧ b ≠ Memory.resetByte f a := by
  unfold Memory.cell at h
  split at h
  · simp at h
  · next hb => exact ⟨by simpa using h, hb⟩

theorem Memory.wf_cell_append {rest : Memory} {a : Nat} (ha : a < 4096) (b : Byte) (hr : Memory.wf f rest)
    (h : ∀ c ∈ rest, a < c.1) : Memory.wf f (Memory.cell f a b ++ rest) := by
  unfold Memory.cell
  split
  · exact hr
  · next hb =>
    refine ⟨List.pairwise_cons.mpr ⟨h, hr.1⟩, ?_⟩
    intro c hc
    rcases List.mem_cons.mp hc with rfl | hc
    · exact ⟨ha, hb⟩
    · exact hr.2 c hc

theorem Memory.mem_write {m : Memory} {a : Nat} {b : Byte} {c : Host.Cell} (h : c ∈ Memory.write f m a b) :
    c.1 = a ∨ c ∈ m := by
  induction m with
  | nil => exact .inl (by rw [(Memory.mem_cell h).1])
  | cons d rest ih =>
    unfold Memory.write at h
    split at h
    · rcases List.mem_append.mp h with h | h
      · exact .inl (by rw [(Memory.mem_cell h).1])
      · exact .inr h
    · split at h
      · rcases List.mem_append.mp h with h | h
        · exact .inl (by rw [(Memory.mem_cell h).1])
        · exact .inr (List.mem_cons_of_mem _ h)
      · rcases List.mem_cons.mp h with h | h
        · exact .inr (by simp [h])
        · rcases ih h with h | h
          · exact .inl h
          · exact .inr (List.mem_cons_of_mem _ h)

/-- A write inside the address space keeps the canonical form. -/
theorem Memory.wf_write {m : Memory} (hm : Memory.wf f m) {a : Nat} (ha : a < 4096) (b : Byte) :
    Memory.wf f (Memory.write f m a b) := by
  induction m with
  | nil => simpa [Memory.write] using Memory.wf_cell_append (rest := []) ha b Memory.wf_nil (by simp)
  | cons c rest ih =>
    have hlt := (List.pairwise_cons.mp hm.1).1
    have hr := Memory.wf_tail hm
    unfold Memory.write
    split
    · next h =>
      apply Memory.wf_cell_append ha b hm
      intro d hd
      rcases List.mem_cons.mp hd with rfl | hd
      · exact h
      · exact Nat.lt_trans h (hlt d hd)
    · split
      · next h =>
        apply Memory.wf_cell_append ha b hr
        intro d hd
        rw [h]
        exact hlt d hd
      · next h1 h2 =>
        have hw := ih hr
        refine ⟨List.pairwise_cons.mpr ⟨?_, hw.1⟩, ?_⟩
        · intro d hd
          rcases Memory.mem_write hd with h | h
          · omega
          · exact hlt d h
        · intro d hd
          rcases List.mem_cons.mp hd with rfl | hd
          · exact hm.2 d (by simp)
          · exact hw.2 d hd

/-! ## The translator and the fetch -/

theorem translate_of_lt {a : Nat} (h : a < 4096) : translate a = .ok a := by simp [translate, h]

theorem translate_of_ge {a : Nat} (h : 4096 ≤ a) : translate a = .error (.outOfBounds a) := by
  simp [translate, Nat.not_lt.mpr h]

/-- A fetch succeeds exactly when PC <= 0xFFE (R35). -/
theorem fetch_of_le {s : State} (h : s.pc.toNat ≤ 0xFFE) :
    fetch s = .ok (joinBytes (s.byte s.pc.toNat) (s.byte (s.pc.toNat + 1))) := by
  simp [fetch, translate_of_lt (show s.pc.toNat < 4096 by omega),
    translate_of_lt (show s.pc.toNat + 1 < 4096 by omega)]

/-- A fetch from 0xFFF or above fails at the first byte outside the memory (R35). -/
theorem fetch_of_ge {s : State} (h : 0xFFF ≤ s.pc.toNat) :
    fetch s = .error (.outOfBounds (max s.pc.toNat 4096)) := by
  by_cases h2 : s.pc.toNat < 4096
  · have h3 : s.pc.toNat = 4095 := by omega
    simp [fetch, translate, h3]
  · simp [fetch, translate, h2]
    omega

theorem le_of_fetch {s : State} {w : Word} (h : fetch s = .ok w) : s.pc.toNat ≤ 0xFFE := by
  by_contra hc
  rw [fetch_of_ge (by omega)] at h
  cases h

/-- The fetch reads PC and the two bytes there alone. -/
theorem fetch_congr {s t : State} (hpc : s.pc = t.pc) (h0 : s.byte s.pc.toNat = t.byte s.pc.toNat)
    (h1 : s.byte (s.pc.toNat + 1) = t.byte (s.pc.toNat + 1)) : fetch s = fetch t := by
  rcases Nat.lt_or_ge 0xFFE s.pc.toNat with h | h
  · rw [fetch_of_ge h, fetch_of_ge (hpc ▸ h), hpc]
  · rw [fetch_of_le h, fetch_of_le (hpc ▸ h), ← hpc, h0, h1]

/-! ## Access sequences (R32, R33) -/

/-- A store sequence fails exactly when its last address is outside the memory, at the first such address. -/
theorem storeBytes_cause (f : Font) (m : Memory) (a : Nat) (bs : List Byte) :
    (storeBytes f m a bs).2 =
      if bs = [] ∨ a + bs.length ≤ 4096 then none else some (.outOfBounds (max a 4096)) := by
  induction bs generalizing m a with
  | nil => simp [storeBytes]
  | cons b bs ih =>
    by_cases h : a < 4096
    · simp only [storeBytes, translate_of_lt h, ih]
      rcases bs with _ | ⟨c, bs⟩
      · simp; omega
      · simp only [List.length_cons, reduceCtorEq, false_or]
        have : max (a + 1) 4096 = max a 4096 := by omega
        rw [this]
        have : a + 1 + (bs.length + 1) ≤ 4096 ↔ a + (bs.length + 1 + 1) ≤ 4096 := by omega
        simp only [this]
    · have h2 : ¬ (a + (bs.length + 1) ≤ 4096) := by omega
      simp only [storeBytes, translate_of_ge (Nat.not_lt.mp h), List.length_cons, reduceCtorEq, false_or, h2,
        if_false]
      congr 2; omega

theorem storeBytes_wf {m : Memory} (hm : Memory.wf f m) (a : Nat) (bs : List Byte) :
    Memory.wf f (storeBytes f m a bs).1 := by
  induction bs generalizing m a with
  | nil => exact hm
  | cons b bs ih =>
    by_cases h : a < 4096
    · simpa only [storeBytes, translate_of_lt h] using ih (Memory.wf_write hm h b) (a + 1)
    · simpa only [storeBytes, translate_of_ge (Nat.not_lt.mp h)] using hm

/-- The bytes stored at addresses inside the memory are the ones given, complete or not; every other byte
is as before. -/
theorem storeBytes_read {m : Memory} (hm : Memory.wf f m) (a : Nat) (bs : List Byte) (k : Nat) :
    Memory.read f (storeBytes f m a bs).1 k =
      if a ≤ k ∧ k < a + bs.length ∧ k < 4096 then bs.getD (k - a) 0 else Memory.read f m k := by
  induction bs generalizing m a with
  | nil => simp [storeBytes]; omega
  | cons b bs ih =>
    by_cases h : a < 4096
    · simp only [storeBytes, translate_of_lt h, ih (Memory.wf_write hm h b), Memory.read_write hm,
        List.length_cons]
      by_cases hk : k = a
      · subst hk
        have : ¬ (k + 1 ≤ k) := by omega
        simp [this, h]
      · by_cases h1 : a + 1 ≤ k
        · have e : k - a = (k - (a + 1)) + 1 := by omega
          have h2 : a ≤ k := by omega
          have h3 : k < a + 1 + bs.length ↔ k < a + (bs.length + 1) := by omega
          simp only [h1, h2, h3, true_and, hk, if_false, e, List.getD_cons_succ]
        · have h2 : ¬ (a ≤ k) := by omega
          simp [h1, h2, hk]
    · have h2 : ¬ (a ≤ k ∧ k < a + (bs.length + 1) ∧ k < 4096) := by omega
      simp only [storeBytes, translate_of_ge (Nat.not_lt.mp h), List.length_cons, h2, if_false]

/-- A load sequence fails exactly when its last address is outside the memory, at the first such address. -/
theorem loadRegs_cause (f : Font) (m : Memory) (v : Vector Byte 16) (a k n : Nat) :
    (loadRegs f m v a k n).2 = if n = 0 ∨ a + n ≤ 4096 then none else some (.outOfBounds (max a 4096)) := by
  induction n generalizing v a k with
  | zero => simp [loadRegs]
  | succ n ih =>
    by_cases h : a < 4096
    · simp only [loadRegs, translate_of_lt h, ih]
      rcases n with _ | n
      · simp; omega
      · have h1 : max (a + 1) 4096 = max a 4096 := by omega
        have h2 : a + 1 + (n + 1) ≤ 4096 ↔ a + (n + 1 + 1) ≤ 4096 := by omega
        simp [h1, h2]
    · have h2 : ¬ (a + (n + 1) ≤ 4096) := by omega
      simp only [loadRegs, translate_of_ge (Nat.not_lt.mp h), Nat.succ_ne_zero, false_or, h2, if_false]
      congr 2; omega

/-- The registers loaded are those whose address is inside the memory; every other one is as before. -/
theorem loadRegs_getElem (f : Font) (m : Memory) (v : Vector Byte 16) (a k n : Nat) (j : Nat) (hj : j < 16) :
    (loadRegs f m v a k n).1[j] =
      if k ≤ j ∧ j < k + n ∧ a + (j - k) < 4096 then Memory.read f m (a + (j - k)) else v[j] := by
  induction n generalizing v a k with
  | zero => simp [loadRegs]; omega
  | succ n ih =>
    by_cases h : a < 4096
    · simp only [loadRegs, translate_of_lt h, ih, Vector.getElem_setIfInBounds]
      by_cases hk : k = j
      · subst hk
        have h1 : ¬ (k + 1 ≤ k) := by omega
        simp [h1, h]
      · by_cases h1 : k + 1 ≤ j
        · have e : a + 1 + (j - (k + 1)) = a + (j - k) := by omega
          have h2 : k ≤ j := by omega
          have h3 : j < k + 1 + n ↔ j < k + (n + 1) := by omega
          simp only [h1, h2, h3, true_and, hk, if_false, e]
        · have h2 : ¬ (k ≤ j) := by omega
          simp [h1, h2, hk]
    · have h2 : ¬ (k ≤ j ∧ j < k + (n + 1) ∧ a + (j - k) < 4096) := by omega
      simp only [loadRegs, translate_of_ge (Nat.not_lt.mp h), h2, if_false]

/-! ## LOAD (R40) -/

theorem copyProgram_wf {m : Memory} (hm : Memory.wf f m) (a : Nat) (bs : List Byte) (h : a + bs.length ≤ 4096) :
    Memory.wf f (copyProgram f m a bs) := by
  induction bs generalizing m a with
  | nil => exact hm
  | cons b bs ih =>
    simp only [List.length_cons] at h
    exact ih (Memory.wf_write hm (by omega) b) (a + 1) (by omega)

theorem copyProgram_read {m : Memory} (hm : Memory.wf f m) (a : Nat) (bs : List Byte) (h : a + bs.length ≤ 4096)
    (k : Nat) :
    Memory.read f (copyProgram f m a bs) k = if a ≤ k ∧ k < a + bs.length then bs.getD (k - a) 0 else Memory.read f m k := by
  induction bs generalizing m a with
  | nil => simp [copyProgram]
  | cons b bs ih =>
    simp only [List.length_cons] at h
    have ha : a < 4096 := by omega
    simp only [copyProgram, ih (Memory.wf_write hm ha b) (a + 1) (by omega), Memory.read_write hm,
      List.length_cons]
    by_cases hk : k = a
    · subst hk
      have : ¬ (k + 1 ≤ k) := by omega
      simp [this]
    · by_cases h1 : a + 1 ≤ k
      · have e : k - a = (k - (a + 1)) + 1 := by omega
        have h2 : a ≤ k := by omega
        have h3 : k < a + 1 + bs.length ↔ k < a + (bs.length + 1) := by omega
        simp only [h1, h2, h3, true_and, hk, if_false, e, List.getD_cons_succ]
      · have h2 : ¬ (a ≤ k) := by omega
        simp [h1, h2, hk]

end Sys2Proof.Machine
end

