-- ==== Sys2Proof/Laws/Display.lean ====
section
/-! SUPPORT. The laws of the draw engine: what one plotted pixel, one sprite row and a whole sprite do to
each cell and to the collision bit (spec/40_display.md R56 to R61). -/

namespace Sys2Proof.Machine

theorem pixel_toggle {fb : Framebuffer} {px py qx qy : Nat} (hp : px < 64) (hq : qx < 64) (hqy : qy < 32) :
    pixel (togglePixel fb px py) qx qy = (pixel fb qx qy ^^ decide (qx = px ∧ qy = py)) := by
  have h1 : (py * 64 + px < 2048 ∧ py * 64 + px = qy * 64 + qx) ↔ (qx = px ∧ qy = py) := by omega
  simp only [pixel, togglePixel, BitVec.getLsbD_xor, BitVec.getLsbD_twoPow, ← Bool.decide_and, h1]

/-- One plotted pixel flips its own cell, if that is on the screen, and no other (R56, R57). -/
theorem plot_pixel (d : Canvas) (px py : Nat) {qx qy : Nat} (hq : qx < 64) (hqy : qy < 32) :
    pixel (d.plot px py).fb qx qy = (pixel d.fb qx qy ^^ decide (qx = px ∧ qy = py)) := by
  unfold Canvas.plot
  split
  · next h => exact pixel_toggle h.1 hq hqy
  · have : ¬ (qx = px ∧ qy = py) := by omega
    simp [this]

/-- One plotted pixel sets the collision bit exactly when it is on the screen and its cell held 1 (R58). -/
theorem plot_col (d : Canvas) (px py : Nat) :
    (d.plot px py).col = (d.col || (decide (px < 64 ∧ py < 32) && pixel d.fb px py)) := by
  unfold Canvas.plot
  split <;> simp_all

/-! ## One sprite row -/

/-- The first k columns of a sprite row. -/
def rowPrefix (b : Byte) (ox py : Nat) (d : Canvas) (k : Nat) : Canvas :=
  (List.range k).foldl (fun d c => if b.getLsbD (7 - c) then d.plot (ox + c) py else d) d

theorem rowPrefix_succ (b : Byte) (ox py : Nat) (d : Canvas) (k : Nat) :
    rowPrefix b ox py d (k + 1) =
      if b.getLsbD (7 - k) then (rowPrefix b ox py d k).plot (ox + k) py else rowPrefix b ox py d k := by
  simp [rowPrefix, List.range_succ, List.foldl_append]

theorem rowPrefix_pixel (b : Byte) (ox py : Nat) (d : Canvas) (k : Nat) {qx qy : Nat} (hq : qx < 64)
    (hqy : qy < 32) :
    pixel (rowPrefix b ox py d k).fb qx qy =
      (pixel d.fb qx qy ^^
        decide (qy = py ∧ ox ≤ qx ∧ qx < ox + k ∧ b.getLsbD (7 - (qx - ox)) = true)) := by
  induction k with
  | zero =>
    have h0 : ¬ (qy = py ∧ ox ≤ qx ∧ qx < ox + 0 ∧ b.getLsbD (7 - (qx - ox)) = true) := by omega
    rw [decide_eq_false h0]
    simp [rowPrefix]
  | succ k ih =>
    rw [rowPrefix_succ]
    by_cases hx : qx = ox + k
    · have h0 : ¬ (qx < ox + k) := by omega
      have h3 : qx - ox = k := by omega
      by_cases hb : b.getLsbD (7 - k) = true
      · rw [if_pos hb, plot_pixel _ _ _ hq hqy, ih]
        simp [hx, hb]
      · simp [hb, ih, h0, h3]
    · have h1 : (qx < ox + (k + 1)) ↔ qx < ox + k := by omega
      by_cases hb : b.getLsbD (7 - k) = true
      · simp [hb, plot_pixel _ _ _ hq hqy, ih, hx, h1]
      · simp [hb, ih, h1]

theorem rowPrefix_col (b : Byte) (ox py : Nat) (d : Canvas) (k : Nat) :
    (rowPrefix b ox py d k).col =
      (d.col || decide (∃ c < k, b.getLsbD (7 - c) = true ∧ ox + c < 64 ∧ py < 32 ∧
        pixel d.fb (ox + c) py = true)) := by
  induction k with
  | zero => simp [rowPrefix]
  | succ k ih =>
    rw [rowPrefix_succ, Bool.eq_iff_iff]
    simp only [Bool.or_eq_true, decide_eq_true_eq, Nat.exists_lt_succ_right]
    by_cases hb : b.getLsbD (7 - k) = true
    · simp only [hb, if_true, plot_col, ih, Bool.or_eq_true, Bool.and_eq_true, decide_eq_true_eq, true_and]
      by_cases hs : ox + k < 64 ∧ py < 32
      · simp [rowPrefix_pixel b ox py d k hs.1 hs.2, hs, or_assoc]
      · have : ¬ (ox + k < 64 ∧ py < 32 ∧ pixel d.fb (ox + k) py = true) := fun h => hs ⟨h.1, h.2.1⟩
        simp [hs, this]
    · simp [hb, ih]

/-- A sprite row flips exactly the cells of its 1-pixels that are on the screen (R56, R57). -/
theorem drawRow_pixel (d : Canvas) (b : Byte) (ox py : Nat) {qx qy : Nat} (hq : qx < 64) (hqy : qy < 32) :
    pixel (d.drawRow b ox py).fb qx qy =
      (pixel d.fb qx qy ^^
        decide (qy = py ∧ ox ≤ qx ∧ qx < ox + 8 ∧ b.getLsbD (7 - (qx - ox)) = true)) :=
  rowPrefix_pixel b ox py d 8 hq hqy

/-- A sprite row sets the collision bit exactly when one of its drawn 1-pixels falls on a 1 (R58). -/
theorem drawRow_col (d : Canvas) (b : Byte) (ox py : Nat) :
    (d.drawRow b ox py).col = true ↔
      d.col = true ∨ ∃ qx, qx < 64 ∧ py < 32 ∧
        (ox ≤ qx ∧ qx < ox + 8 ∧ b.getLsbD (7 - (qx - ox)) = true) ∧ pixel d.fb qx py = true := by
  rw [show d.drawRow b ox py = rowPrefix b ox py d 8 from rfl, rowPrefix_col, Bool.or_eq_true, decide_eq_true_eq]
  refine or_congr Iff.rfl ?_
  constructor
  · rintro ⟨c, hc, hb, hx, hy, hp⟩
    exact ⟨ox + c, hx, hy, ⟨by omega, by omega, by simpa using hb⟩, hp⟩
  · rintro ⟨qx, hx, hy, ⟨h1, h2, hb⟩, hp⟩
    have e : ox + (qx - ox) = qx := by omega
    exact ⟨qx - ox, by omega, hb, by omega, hy, by rw [e]; exact hp⟩

/-! ## A whole sprite -/

/-- The sprite has a 1 at column qx and row qy, in a row whose byte is inside the memory, when its n rows
start at address a and are drawn at the exact origin (ox, py) (R56, R57). -/
abbrev spriteOne (f : Font) (m : Memory) (ox a py n qx qy : Nat) : Prop :=
  (py ≤ qy ∧ qy < py + n ∧ a + (qy - py) < 4096) ∧
    ox ≤ qx ∧ qx < ox + 8 ∧ (Memory.read f m (a + (qy - py))).getLsbD (7 - (qx - ox)) = true

/-- A draw fails exactly when it has a row outside the memory, at the first such address (R59, R60). -/
theorem drawRows_cause (f : Font) (m : Memory) (ox : Nat) (d : Canvas) (a py n : Nat) :
    (d.drawRows f m ox a py n).2 = if n = 0 ∨ a + n ≤ 4096 then none else some (.outOfBounds (max a 4096)) := by
  induction n generalizing d a py with
  | zero => simp [Canvas.drawRows]
  | succ n ih =>
    by_cases h : a < 4096
    · simp only [Canvas.drawRows, translate_of_lt h, ih]
      rcases n with _ | n
      · simp; omega
      · have h1 : max (a + 1) 4096 = max a 4096 := by omega
        have h2 : a + 1 + (n + 1) ≤ 4096 ↔ a + (n + 1 + 1) ≤ 4096 := by omega
        simp [h1, h2]
    · have h2 : ¬ (a + (n + 1) ≤ 4096) := by omega
      simp only [Canvas.drawRows, translate_of_ge (Nat.not_lt.mp h), Nat.succ_ne_zero, false_or, h2, if_false]
      congr 2; omega

/-- A draw, complete or not, flips exactly the cells of the 1-pixels it drew (R57, R61). -/
theorem drawRows_pixel (f : Font) (m : Memory) (ox : Nat) (d : Canvas) (a py n : Nat) {qx qy : Nat} (hq : qx < 64)
    (hqy : qy < 32) :
    pixel (d.drawRows f m ox a py n).1.fb qx qy =
      (pixel d.fb qx qy ^^ decide (spriteOne f m ox a py n qx qy)) := by
  induction n generalizing d a py with
  | zero =>
    have : ¬ spriteOne f m ox a py 0 qx qy := by rintro ⟨⟨_, _, _⟩, _⟩; omega
    simp [Canvas.drawRows, this]
  | succ n ih =>
    by_cases h : a < 4096
    · simp only [Canvas.drawRows, translate_of_lt h, ih, drawRow_pixel _ _ _ _ hq hqy]
      by_cases hy : qy = py
      · subst hy
        simp [h, spriteOne]
      · by_cases hy2 : py + 1 ≤ qy
        · have e : a + 1 + (qy - (py + 1)) = a + (qy - py) := by omega
          have h1 : py ≤ qy := by omega
          have h2 : qy < py + 1 + n ↔ qy < py + (n + 1) := by omega
          simp [spriteOne, hy, hy2, h1, h2, e]
        · have h1 : ¬ (py ≤ qy) := by omega
          simp [spriteOne, hy, hy2, h1]
    · have h0 : ¬ spriteOne f m ox a py (n + 1) qx qy := by rintro ⟨⟨_, _, _⟩, _⟩; omega
      simp [Canvas.drawRows, translate_of_ge (Nat.not_lt.mp h), h0]

/-- The collision bit of a draw: some drawn 1-pixel fell on a cell that held 1 (R58). -/
theorem drawRows_col (f : Font) (m : Memory) (ox : Nat) (d : Canvas) (a py n : Nat) :
    (d.drawRows f m ox a py n).1.col = true ↔
      d.col = true ∨ ∃ qx qy, qx < 64 ∧ qy < 32 ∧ spriteOne f m ox a py n qx qy ∧ pixel d.fb qx qy = true := by
  induction n generalizing d a py with
  | zero =>
    have h0 : ∀ qx qy, ¬ spriteOne f m ox a py 0 qx qy := by rintro qx qy ⟨⟨_, _, _⟩, _⟩; omega
    simp [Canvas.drawRows, h0]
  | succ n ih =>
    by_cases h : a < 4096
    · simp only [Canvas.drawRows, translate_of_lt h, ih, drawRow_col]
      have rest : ∀ qx qy, qx < 64 → qy < 32 → spriteOne f m ox (a + 1) (py + 1) n qx qy →
          pixel (d.drawRow (Memory.read f m a) ox py).fb qx qy = pixel d.fb qx qy := by
        rintro qx qy hx hy ⟨⟨h1, _, _⟩, _⟩
        have : qy ≠ py := by omega
        simp [drawRow_pixel _ _ _ _ hx hy, this]
      constructor
      · rintro ((hc | ⟨qx, hx, hy, hb, hp⟩) | ⟨qx, qy, hx, hy, hs, hp⟩)
        · exact .inl hc
        · refine .inr ⟨qx, py, hx, hy, ⟨⟨by omega, by omega, by omega⟩, ?_⟩, hp⟩
          simpa using hb
        · rw [rest qx qy hx hy hs] at hp
          obtain ⟨⟨h1, h2, h3⟩, hb⟩ := hs
          have e : a + 1 + (qy - (py + 1)) = a + (qy - py) := by omega
          rw [e] at hb h3
          exact .inr ⟨qx, qy, hx, hy, ⟨⟨by omega, by omega, h3⟩, hb⟩, hp⟩
      · rintro (hc | ⟨qx, qy, hx, hy, ⟨⟨h1, h2, h3⟩, hb⟩, hp⟩)
        · exact .inl (.inl hc)
        · by_cases hqy : qy = py
          · subst hqy
            exact .inl (.inr ⟨qx, hx, hy, by simpa using hb, hp⟩)
          · have e : a + 1 + (qy - (py + 1)) = a + (qy - py) := by omega
            have hs : spriteOne f m ox (a + 1) (py + 1) n qx qy := by
              refine ⟨⟨by omega, by omega, by omega⟩, ?_⟩
              rw [e]; exact hb
            exact .inr ⟨qx, qy, hx, hy, hs, by rw [rest qx qy hx hy hs]; exact hp⟩
    · have h0 : ∀ qx qy, ¬ spriteOne f m ox a py (n + 1) qx qy := by rintro qx qy ⟨⟨_, _, _⟩, _⟩; omega
      simp [Canvas.drawRows, translate_of_ge (Nat.not_lt.mp h), h0]

end Sys2Proof.Machine
end

