-- ==== Sys2Proof/Laws/Machine.lean ====
section
/-! SUPPORT. What each shared operation of the machine can do: the stack controller, table indexes, the key
wait's choice of a key, the end of an instruction, a cycle and a host command. -/

namespace Sys2Proof.Machine

variable {s t : State}

/-! ## The stack controller (R63, R64) -/

theorem push_of_lt (r : Word) (h : s.sp.val < 16) :
    push r s = .ok { s with stack := s.stack.set s.sp.val r h, sp := ⟨s.sp.val + 1, Nat.succ_lt_succ h⟩ } := by
  simp [push, h]

theorem push_of_full (r : Word) (h : s.sp.val = 16) : push r s = .error .stackOverflow := by
  simp [push, h]

theorem pop_of_pos (h : 0 < s.sp.val) :
    pop s = .ok (s.stack[s.sp.val - 1]'(by omega), { s with sp := ⟨s.sp.val - 1, by omega⟩ }) := by
  simp [pop, Nat.pos_iff_ne_zero.mp h]

theorem pop_of_zero (h : s.sp.val = 0) : pop s = .error .stackUnderflow := by
  simp [pop, h]

/-! ## Table indexes and keys (R49, R99) -/

theorem tableIndex_of_le {b : Byte} (h : b.toNat ≤ 15) : tableIndex b = some b.toNat := by
  simp [tableIndex, Nat.not_lt.mpr h]

theorem tableIndex_of_gt {b : Byte} (h : 15 < b.toNat) : tableIndex b = none := by
  simp [tableIndex, h]

/-- The key chosen is pressed, and no lower one is (R99). -/
theorem lowestKey_spec {e : Keys} (h : e ≠ 0) :
    lowestKey e < 16 ∧ e.getLsbD (lowestKey e) = true ∧ ∀ j < lowestKey e, e.getLsbD j = false := by
  have hex : ∃ k < 16, e.getLsbD k = true := by
    by_contra hc
    apply h
    apply BitVec.eq_of_getLsbD_eq
    intro k hk
    by_cases hb : e.getLsbD k = true
    · exact absurd ⟨k, hk, hb⟩ hc
    · simpa using hb
  obtain ⟨k, hk, hb⟩ := hex
  have hlt : lowestKey e < (List.range 16).length :=
    List.findIdx_lt_length_of_exists ⟨k, by simpa using hk, hb⟩
  refine ⟨by simpa using hlt, ?_, ?_⟩
  · have := List.findIdx_getElem (xs := List.range 16) (p := fun k => e.getLsbD k) (w := hlt)
    have hr : (List.range 16)[lowestKey e]'hlt = lowestKey e := by simp
    exact (congrArg (fun k => e.getLsbD k) hr).symm.trans this
  · intro j hj
    have := List.not_of_lt_findIdx hj
    simpa using this

/-! ## The end of an instruction (R51, R105) -/

@[simp] theorem finish_none (i : Instr) : finish none i s = .next (s.advance 2) := rfl

@[simp] theorem finish_some (c : FaultCause) (i : Instr) :
    finish (some c) i s = .next (takeFault c (some (encode i)) s) := rfl

@[simp] theorem raise_eq (c : FaultCause) (i : Instr) :
    raise c i s = .next (takeFault c (some (encode i)) s) := rfl

/-! ## The instructions that can fault, on each side of their check (R104) -/

theorem exec_callAddr_of_lt (nnn : Addr12) (h : s.sp.val < 16) :
    exec (.callAddr nnn) s = .next { s with
      pc := target nnn, stack := s.stack.set s.sp.val (s.pc + 2) h, sp := ⟨s.sp.val + 1, Nat.succ_lt_succ h⟩ } := by
  simp only [exec, execCallAddr, push_of_lt _ h]

theorem exec_callAddr_of_full (nnn : Addr12) (h : s.sp.val = 16) :
    exec (.callAddr nnn) s = .next (takeFault .stackOverflow (some (encode (.callAddr nnn))) s) := by
  simp only [exec, execCallAddr, push_of_full _ h, raise_eq]

theorem exec_ret_of_pos (h : 0 < s.sp.val) :
    exec .ret s = .next { s with pc := s.stack[s.sp.val - 1]'(by omega), sp := ⟨s.sp.val - 1, by omega⟩ } := by
  simp only [exec, execRet, pop_of_pos h]

theorem exec_ret_of_zero (h : s.sp.val = 0) :
    exec .ret s = .next (takeFault .stackUnderflow (some (encode .ret)) s) := by
  simp only [exec, execRet, pop_of_zero h, raise_eq]

theorem exec_ldIVx_of_le {x : RegIx} (h : (s.reg x).toNat ≤ 15) :
    exec (.ldIVx x) s = .next ({ s with i := fontAddr (s.reg x).toNat }.advance 2) := by
  simp only [exec, execLdIVx, tableIndex_of_le h]

theorem exec_ldIVx_of_gt {x : RegIx} (h : 15 < (s.reg x).toNat) :
    exec (.ldIVx x) s = .next (takeFault .invalidOpcode (some (encode (.ldIVx x))) s) := by
  simp only [exec, execLdIVx, tableIndex_of_gt h, raise_eq]

theorem exec_skpVx_of_le {x : RegIx} (h : (s.reg x).toNat ≤ 15) :
    exec (.skpVx x) s = .next (s.skipIf (s.key (s.reg x).toNat)) := by
  simp only [exec, execSkpVx, tableIndex_of_le h]

theorem exec_skpVx_of_gt {x : RegIx} (h : 15 < (s.reg x).toNat) :
    exec (.skpVx x) s = .next (takeFault .invalidOpcode (some (encode (.skpVx x))) s) := by
  simp only [exec, execSkpVx, tableIndex_of_gt h, raise_eq]

theorem exec_sknpVx_of_le {x : RegIx} (h : (s.reg x).toNat ≤ 15) :
    exec (.sknpVx x) s = .next (s.skipIf (!s.key (s.reg x).toNat)) := by
  simp only [exec, execSknpVx, tableIndex_of_le h]

theorem exec_sknpVx_of_gt {x : RegIx} (h : 15 < (s.reg x).toNat) :
    exec (.sknpVx x) s = .next (takeFault .invalidOpcode (some (encode (.sknpVx x))) s) := by
  simp only [exec, execSknpVx, tableIndex_of_gt h, raise_eq]

/-! ## The three outcomes of LD Vx, K (R99) -/

theorem exec_ldVxK_arms (x : RegIx) (h : s.wait = false) :
    exec (.ldVxK x) s = .next { s with keyPrev := s.keypad, wait := true, waitX := x } := by
  simp [exec, execLdVxK, h]

theorem exec_ldVxK_samples (x : RegIx) (h : s.wait = true) (hk : s.newKeys = 0) :
    exec (.ldVxK x) s = .next { s with keyPrev := s.keypad } := by
  simp [exec, execLdVxK, h, hk]

theorem exec_ldVxK_completes (x : RegIx) (h : s.wait = true) (hk : s.newKeys ≠ 0) :
    exec (.ldVxK x) s = .next (({ s with wait := false, waitX := 0, keyPrev := 0 }.setReg x
      (BitVec.ofNat 8 (lowestKey s.newKeys))).advance 2) := by
  simp [exec, execLdVxK, h, show ¬ s.newKeys = 0#16 from hk]

/-! ## A cycle (R50) -/

theorem cycle_of_halted (h : s.fault.halted = true) : cycle s = .next s := by simp [cycle, h]

theorem cycle_of_fetch_error {c : FaultCause} (h : s.fault.halted = false) (hf : fetch s = .error c) :
    cycle s = .next (takeFault c none s.closeLoad) := by simp [cycle, h, hf]

theorem cycle_of_invalid {w : Word} {e : Rejection} (h : s.fault.halted = false) (hf : fetch s = .ok w)
    (hd : decodeWord w = .error e) : cycle s = .next (takeFault .invalidOpcode (some w) s.closeLoad) := by
  simp [cycle, h, hf, runWord, hd]

theorem cycle_of_decoded {w : Word} {i : Instr} (h : s.fault.halted = false) (hf : fetch s = .ok w)
    (hd : decodeWord w = .ok i) : cycle s = exec i s.closeLoad := by
  simp [cycle, h, hf, runWord, hd]

/-- Everything a cycle can be (R50). -/
theorem cycle_cases (s : State) :
    (s.fault.halted = true ∧ cycle s = .next s) ∨
    (s.fault.halted = false ∧ ∃ c, fetch s = .error c ∧ cycle s = .next (takeFault c none s.closeLoad)) ∨
    (s.fault.halted = false ∧ ∃ w e, fetch s = .ok w ∧ decodeWord w = .error e ∧
      cycle s = .next (takeFault .invalidOpcode (some w) s.closeLoad)) ∨
    (s.fault.halted = false ∧ ∃ w i, fetch s = .ok w ∧ decodeWord w = .ok i ∧ cycle s = exec i s.closeLoad) := by
  cases h : s.fault.halted with
  | true => exact .inl ⟨rfl, cycle_of_halted h⟩
  | false =>
    cases hf : fetch s with
    | error c => exact .inr (.inl ⟨rfl, c, rfl, cycle_of_fetch_error h hf⟩)
    | ok w =>
      cases hd : decodeWord w with
      | error e => exact .inr (.inr (.inl ⟨rfl, w, e, rfl, hd, cycle_of_invalid h hf hd⟩))
      | ok i => exact .inr (.inr (.inr ⟨rfl, w, i, rfl, hd, cycle_of_decoded h hf hd⟩))

/-! ## LOAD and a step (R24, R40) -/

theorem load_of_ok {bytes : List Byte} (h : loadResponse bytes s = .ok) :
    load bytes s = { s with mem := copyProgram s.params.font s.mem 0x200 bytes, loadable := false } := by simp [load, h]

theorem load_of_not_ok {bytes : List Byte} (h : loadResponse bytes s ≠ .ok) : load bytes s = s := by
  unfold load
  cases hr : loadResponse bytes s
  · exact absurd hr h
  · rfl
  · rfl

theorem loadResponse_ok {bytes : List Byte} :
    loadResponse bytes s = .ok ↔ s.loadable = true ∧ bytes.length ≤ 3584 := by
  unfold loadResponse
  split
  · next h => simp [h]
  · next h =>
    have h' : s.loadable = true := by simpa using h
    split <;> simp_all

theorem step_of_no_command (h : s.inbox = []) : step s = cycle s := by simp [step, runStep, h]

theorem step_of_command {c : Command} {rest : List Command} (h : s.inbox = c :: rest) :
    step s = perform c { s with inbox := rest } := by simp [step, runStep, h]

/-! ## Launch and runs (R124) -/

theorem launch_cases (h : Launch s) : ∃ (r : State) (bytes : List Byte), bytes.length ≤ 3584 ∧
    s = { resetCommand r with mem := copyProgram r.params.font [] 0x200 bytes, loadable := false } := by
  obtain ⟨r, bytes, hr, rfl⟩ := h
  exact ⟨r, bytes, (loadResponse_ok.mp hr).2, load_of_ok hr⟩

/-- What every command of a run keeps, a run keeps. -/
theorem run_keeps {P : State → Prop} {cs : List Command} (h : Run cs s t)
    (hstep : ∀ c s t, c.ofRun = true → perform c s = .next t → P s → P t) (hs : P s) : P t := by
  induction h with
  | done => exact hs
  | perform hc hp _ ih => exact ih (hstep _ _ _ hc hp hs)

end Sys2Proof.Machine
end

