-- ==== Sys2Proof/Laws/PerInstr.lean ====
section
/-! SUPPORT. The family TableRow: the word the encoder gives an instruction matches that instruction's row
of spec/opcode_table.json, mask and match as the table writes them (spec/30_encoding.md R44, R46). -/

namespace Sys2Proof.Laws.TableRow

/-- The mask of the instruction's row. -/
def rowMask : Instr → Word
  | .cls => 0xFFFF
  | .ret => 0xFFFF
  | .jpAddr _ => 0xF000
  | .callAddr _ => 0xF000
  | .seVxByte _ _ => 0xF000
  | .sneVxByte _ _ => 0xF000
  | .seVxVy _ _ => 0xF00F
  | .ldVxByte _ _ => 0xF000
  | .addVxByte _ _ => 0xF000
  | .ldVxVy _ _ => 0xF00F
  | .orVxVy _ _ => 0xF00F
  | .andVxVy _ _ => 0xF00F
  | .xorVxVy _ _ => 0xF00F
  | .addVxVy _ _ => 0xF00F
  | .subVxVy _ _ => 0xF00F
  | .shrVxVy _ _ => 0xF00F
  | .subnVxVy _ _ => 0xF00F
  | .shlVxVy _ _ => 0xF00F
  | .sneVxVy _ _ => 0xF00F
  | .ldIAddr _ => 0xF000
  | .jpV0Addr _ => 0xF000
  | .rndVxByte _ _ => 0xF000
  | .drwVxVyNibble _ _ _ => 0xF000
  | .skpVx _ => 0xF0FF
  | .sknpVx _ => 0xF0FF
  | .ldVxDt _ => 0xF0FF
  | .ldVxK _ => 0xF0FF
  | .ldDtVx _ => 0xF0FF
  | .ldStVx _ => 0xF0FF
  | .addIVx _ => 0xF0FF
  | .ldIVx _ => 0xF0FF
  | .ldBVx _ => 0xF0FF
  | .ldMemVx _ => 0xF0FF
  | .ldVxMem _ => 0xF0FF

/-- The match value of the instruction's row. -/
def rowMatch : Instr → Word
  | .cls => 0x00E0
  | .ret => 0x00EE
  | .jpAddr _ => 0x1000
  | .callAddr _ => 0x2000
  | .seVxByte _ _ => 0x3000
  | .sneVxByte _ _ => 0x4000
  | .seVxVy _ _ => 0x5000
  | .ldVxByte _ _ => 0x6000
  | .addVxByte _ _ => 0x7000
  | .ldVxVy _ _ => 0x8000
  | .orVxVy _ _ => 0x8001
  | .andVxVy _ _ => 0x8002
  | .xorVxVy _ _ => 0x8003
  | .addVxVy _ _ => 0x8004
  | .subVxVy _ _ => 0x8005
  | .shrVxVy _ _ => 0x8006
  | .subnVxVy _ _ => 0x8007
  | .shlVxVy _ _ => 0x800E
  | .sneVxVy _ _ => 0x9000
  | .ldIAddr _ => 0xA000
  | .jpV0Addr _ => 0xB000
  | .rndVxByte _ _ => 0xC000
  | .drwVxVyNibble _ _ _ => 0xD000
  | .skpVx _ => 0xE09E
  | .sknpVx _ => 0xE0A1
  | .ldVxDt _ => 0xF007
  | .ldVxK _ => 0xF00A
  | .ldDtVx _ => 0xF015
  | .ldStVx _ => 0xF018
  | .addIVx _ => 0xF01E
  | .ldIVx _ => 0xF029
  | .ldBVx _ => 0xF033
  | .ldMemVx _ => 0xF055
  | .ldVxMem _ => 0xF065

/-- The bits the row fixes have the row's values in the encoded word. -/
def Statement (i : Instr) : Prop := encode i &&& rowMask i = rowMatch i

theorem and_ones (c : Nibble) : c &&& 15#4 = c := BitVec.and_allOnes

theorem mask_formatA (c : Nibble) (nnn : Addr12) : formatA c nnn &&& 0xF000#16 = formatA c 0 := by
  show (c ++ nnn) &&& (15#4 ++ 0#12) = c ++ 0#12
  rw [BitVec.and_append, and_ones, BitVec.and_zero]

theorem mask_formatXB (c : Nibble) (x : RegIx) (nn : Byte) :
    formatXB c x nn &&& 0xF000#16 = formatXB c 0 0 := by
  show (c ++ x ++ nn) &&& (15#4 ++ 0#4 ++ 0#8) = c ++ 0#4 ++ 0#8
  rw [BitVec.and_append, BitVec.and_append, and_ones, BitVec.and_zero, BitVec.and_zero]

theorem mask_formatX (c : Nibble) (x : RegIx) (nn : Byte) :
    formatXB c x nn &&& 0xF0FF#16 = formatXB c 0 nn := by
  show (c ++ x ++ nn) &&& (15#4 ++ 0#4 ++ BitVec.allOnes 8) = c ++ 0#4 ++ nn
  rw [BitVec.and_append, BitVec.and_append, and_ones, BitVec.and_zero, BitVec.and_allOnes]

theorem mask_formatXYN (c : Nibble) (x y : RegIx) (n : Nibble) :
    formatXYN c x y n &&& 0xF000#16 = formatXYN c 0 0 0 := by
  show (c ++ x ++ y ++ n) &&& (15#4 ++ 0#4 ++ 0#4 ++ 0#4) = c ++ 0#4 ++ 0#4 ++ 0#4
  rw [BitVec.and_append, BitVec.and_append, BitVec.and_append, and_ones, BitVec.and_zero, BitVec.and_zero,
    BitVec.and_zero]

theorem mask_formatXY (c : Nibble) (x y : RegIx) (n : Nibble) :
    formatXYN c x y n &&& 0xF00F#16 = formatXYN c 0 0 n := by
  show (c ++ x ++ y ++ n) &&& (15#4 ++ 0#4 ++ 0#4 ++ 15#4) = c ++ 0#4 ++ 0#4 ++ n
  rw [BitVec.and_append, BitVec.and_append, BitVec.and_append, and_ones, and_ones, BitVec.and_zero,
    BitVec.and_zero]

theorem cls : Statement .cls := by unfold Statement; decide
theorem ret : Statement .ret := by unfold Statement; decide
theorem jpAddr (nnn : Addr12) : Statement (.jpAddr nnn) := (mask_formatA _ _).trans rfl
theorem callAddr (nnn : Addr12) : Statement (.callAddr nnn) := (mask_formatA _ _).trans rfl
theorem seVxByte (x : RegIx) (nn : Byte) : Statement (.seVxByte x nn) := (mask_formatXB _ _ _).trans rfl
theorem sneVxByte (x : RegIx) (nn : Byte) : Statement (.sneVxByte x nn) := (mask_formatXB _ _ _).trans rfl
theorem seVxVy (x : RegIx) (y : RegIx) : Statement (.seVxVy x y) := (mask_formatXY _ _ _ _).trans rfl
theorem ldVxByte (x : RegIx) (nn : Byte) : Statement (.ldVxByte x nn) := (mask_formatXB _ _ _).trans rfl
theorem addVxByte (x : RegIx) (nn : Byte) : Statement (.addVxByte x nn) := (mask_formatXB _ _ _).trans rfl
theorem ldVxVy (x : RegIx) (y : RegIx) : Statement (.ldVxVy x y) := (mask_formatXY _ _ _ _).trans rfl
theorem orVxVy (x : RegIx) (y : RegIx) : Statement (.orVxVy x y) := (mask_formatXY _ _ _ _).trans rfl
theorem andVxVy (x : RegIx) (y : RegIx) : Statement (.andVxVy x y) := (mask_formatXY _ _ _ _).trans rfl
theorem xorVxVy (x : RegIx) (y : RegIx) : Statement (.xorVxVy x y) := (mask_formatXY _ _ _ _).trans rfl
theorem addVxVy (x : RegIx) (y : RegIx) : Statement (.addVxVy x y) := (mask_formatXY _ _ _ _).trans rfl
theorem subVxVy (x : RegIx) (y : RegIx) : Statement (.subVxVy x y) := (mask_formatXY _ _ _ _).trans rfl
theorem shrVxVy (x : RegIx) (y : RegIx) : Statement (.shrVxVy x y) := (mask_formatXY _ _ _ _).trans rfl
theorem subnVxVy (x : RegIx) (y : RegIx) : Statement (.subnVxVy x y) := (mask_formatXY _ _ _ _).trans rfl
theorem shlVxVy (x : RegIx) (y : RegIx) : Statement (.shlVxVy x y) := (mask_formatXY _ _ _ _).trans rfl
theorem sneVxVy (x : RegIx) (y : RegIx) : Statement (.sneVxVy x y) := (mask_formatXY _ _ _ _).trans rfl
theorem ldIAddr (nnn : Addr12) : Statement (.ldIAddr nnn) := (mask_formatA _ _).trans rfl
theorem jpV0Addr (nnn : Addr12) : Statement (.jpV0Addr nnn) := (mask_formatA _ _).trans rfl
theorem rndVxByte (x : RegIx) (nn : Byte) : Statement (.rndVxByte x nn) := (mask_formatXB _ _ _).trans rfl
theorem drwVxVyNibble (x : RegIx) (y : RegIx) (n : Nibble) : Statement (.drwVxVyNibble x y n) := (mask_formatXYN _ _ _ _).trans rfl
theorem skpVx (x : RegIx) : Statement (.skpVx x) := (mask_formatX _ _ _).trans rfl
theorem sknpVx (x : RegIx) : Statement (.sknpVx x) := (mask_formatX _ _ _).trans rfl
theorem ldVxDt (x : RegIx) : Statement (.ldVxDt x) := (mask_formatX _ _ _).trans rfl
theorem ldVxK (x : RegIx) : Statement (.ldVxK x) := (mask_formatX _ _ _).trans rfl
theorem ldDtVx (x : RegIx) : Statement (.ldDtVx x) := (mask_formatX _ _ _).trans rfl
theorem ldStVx (x : RegIx) : Statement (.ldStVx x) := (mask_formatX _ _ _).trans rfl
theorem addIVx (x : RegIx) : Statement (.addIVx x) := (mask_formatX _ _ _).trans rfl
theorem ldIVx (x : RegIx) : Statement (.ldIVx x) := (mask_formatX _ _ _).trans rfl
theorem ldBVx (x : RegIx) : Statement (.ldBVx x) := (mask_formatX _ _ _).trans rfl
theorem ldMemVx (x : RegIx) : Statement (.ldMemVx x) := (mask_formatX _ _ _).trans rfl
theorem ldVxMem (x : RegIx) : Statement (.ldVxMem x) := (mask_formatX _ _ _).trans rfl

end Sys2Proof.Laws.TableRow
end

