-- ==== Sys2Proof/Tests/Slice0.lean ====
section
/-! SUPPORT. The model's own tests. Every expected result comes from the spec: its encodings (R44, R46), its
worked examples and the vectors of spec/95_test_vectors.md, whose ids stand in the comments. The witnesses at
the end show, for each obligation with hypotheses, a concrete state that meets all of them. -/

open Sys2Proof Sys2Proof.Machine Sys2Proof.Claims

namespace Sys2Proof.Tests

/-! ## WellFormed refuses: one ill-formed line for each check (R53) -/

theorem smoke_register : (Line.mk .ld [.v 16, .num 0]).wf = false ∧ assemble ⟨.ld, [.v 16, .num 0]⟩ = none := by decide
theorem smoke_addr : (Line.mk .jp [.num 0x1000]).wf = false ∧ assemble ⟨.jp, [.num 0x1000]⟩ = none := by decide
theorem smoke_byte : (Line.mk .rnd [.v 1, .num 256]).wf = false ∧ assemble ⟨.rnd, [.v 1, .num 256]⟩ = none := by decide
theorem smoke_nibble :
    (Line.mk .drw [.v 1, .v 2, .num 16]).wf = false ∧ assemble ⟨.drw, [.v 1, .v 2, .num 16]⟩ = none := by decide
theorem smoke_jp_base : (Line.mk .jp [.v 1, .num 0x300]).wf = false ∧ assemble ⟨.jp, [.v 1, .num 0x300]⟩ = none := by decide
theorem smoke_form : (Line.mk .cls [.v 0]).wf = false ∧ assemble ⟨.cls, [.v 0]⟩ = none := by decide

/-- `SHR V1` encodes y = 0 (R53, vector V-SHR3). -/
theorem test_assemble_shr_one_operand : (assemble ⟨.shr, [.v 1]⟩).map encode = some 0x8106 := by decide
/-- `LD I, Vx` and `LD I, addr` are told apart by the operand (R53). -/
theorem test_assemble_ld_i :
    (assemble ⟨.ld, [.i, .v 0]⟩).map encode = some 0xF029 ∧
    (assemble ⟨.ld, [.i, .num 0x123]⟩).map encode = some 0xA123 := by decide

/-! ## Decoding: a word written out from R44 and R46 for every constructor -/

theorem test_decode_cls : decodeTableWord 16 0x00E0 = some .cls := by decide
theorem test_decode_ret : decodeTableWord 16 0x00EE = some .ret := by decide
theorem test_decode_jpAddr : decodeTableWord 16 0x1345 = some (.jpAddr 0x345) := by decide
theorem test_decode_callAddr : decodeTableWord 16 0x2A0F = some (.callAddr 0xA0F) := by decide
theorem test_decode_seVxByte : decodeTableWord 16 0x3142 = some (.seVxByte 0x1 0x42) := by decide
theorem test_decode_sneVxByte : decodeTableWord 16 0x4E07 = some (.sneVxByte 0xE 0x07) := by decide
theorem test_decode_seVxVy : decodeTableWord 16 0x5120 = some (.seVxVy 0x1 0x2) := by decide
theorem test_decode_ldVxByte : decodeTableWord 16 0x6A7B = some (.ldVxByte 0xA 0x7B) := by decide
theorem test_decode_addVxByte : decodeTableWord 16 0x71FF = some (.addVxByte 0x1 0xFF) := by decide
theorem test_decode_ldVxVy : decodeTableWord 16 0x8F00 = some (.ldVxVy 0xF 0x0) := by decide
theorem test_decode_orVxVy : decodeTableWord 16 0x8121 = some (.orVxVy 0x1 0x2) := by decide
theorem test_decode_andVxVy : decodeTableWord 16 0x8122 = some (.andVxVy 0x1 0x2) := by decide
theorem test_decode_xorVxVy : decodeTableWord 16 0x8123 = some (.xorVxVy 0x1 0x2) := by decide
theorem test_decode_addVxVy : decodeTableWord 16 0x81F4 = some (.addVxVy 0x1 0xF) := by decide
theorem test_decode_subVxVy : decodeTableWord 16 0x8125 = some (.subVxVy 0x1 0x2) := by decide
theorem test_decode_shrVxVy : decodeTableWord 16 0x8126 = some (.shrVxVy 0x1 0x2) := by decide
theorem test_decode_subnVxVy : decodeTableWord 16 0x8127 = some (.subnVxVy 0x1 0x2) := by decide
theorem test_decode_shlVxVy : decodeTableWord 16 0x812E = some (.shlVxVy 0x1 0x2) := by decide
theorem test_decode_sneVxVy : decodeTableWord 16 0x9120 = some (.sneVxVy 0x1 0x2) := by decide
theorem test_decode_ldIAddr : decodeTableWord 16 0xA123 = some (.ldIAddr 0x123) := by decide
theorem test_decode_jpV0Addr : decodeTableWord 16 0xB300 = some (.jpV0Addr 0x300) := by decide
theorem test_decode_rndVxByte : decodeTableWord 16 0xC10F = some (.rndVxByte 0x1 0x0F) := by decide
theorem test_decode_drwVxVyNibble : decodeTableWord 16 0xD125 = some (.drwVxVyNibble 0x1 0x2 0x5) := by decide
theorem test_decode_skpVx : decodeTableWord 16 0xE59E = some (.skpVx 0x5) := by decide
theorem test_decode_sknpVx : decodeTableWord 16 0xE5A1 = some (.sknpVx 0x5) := by decide
theorem test_decode_ldVxDt : decodeTableWord 16 0xF407 = some (.ldVxDt 0x4) := by decide
theorem test_decode_ldVxK : decodeTableWord 16 0xF30A = some (.ldVxK 0x3) := by decide
theorem test_decode_ldDtVx : decodeTableWord 16 0xF415 = some (.ldDtVx 0x4) := by decide
theorem test_decode_ldStVx : decodeTableWord 16 0xF418 = some (.ldStVx 0x4) := by decide
theorem test_decode_addIVx : decodeTableWord 16 0xF21E = some (.addIVx 0x2) := by decide
theorem test_decode_ldIVx : decodeTableWord 16 0xF329 = some (.ldIVx 0x3) := by decide
theorem test_decode_ldBVx : decodeTableWord 16 0xFA33 = some (.ldBVx 0xA) := by decide
theorem test_decode_ldMemVx : decodeTableWord 16 0xF255 = some (.ldMemVx 0x2) := by decide
theorem test_decode_ldVxMem : decodeTableWord 16 0xF265 = some (.ldVxMem 0x2) := by decide

/-- The byte at the lower address holds bits 15..8 (R31, R42). -/
theorem test_decode_bytes : decodeBytes [0x63, 0x42, 0xFF] = .ok (.ldVxByte 0x3 0x42, [0xFF]) := by decide
theorem test_decode_truncated : decodeBytes [0x63] = .error .truncated := by decide

/-! ### Words that select no instruction (R47) -/

theorem test_invalid_sys : decodeWord 0x0123 = .error .invalid0 := by decide
theorem test_invalid_category0_x : decodeWord 0x01E0 = .error .invalid0 := by decide
theorem test_invalid_category5 : decodeWord 0x5001 = .error .invalid5 := by decide
theorem test_invalid_category8 : decodeWord 0x812D = .error .invalid8 := by decide
theorem test_invalid_category9 : decodeWord 0x9008 = .error .invalid9 := by decide
theorem test_invalid_categoryE : decodeWord 0xE09F = .error .invalidE := by decide
theorem test_invalid_categoryF : decodeWord 0xF01F = .error .invalidF := by decide

/-! ## One step of each instruction -/

/-- A launch-like state with the word w at PC, after the changes f makes to the reset state. -/
def start (w : Nat) (f : State → State) : State := (f State.reset).withFetchWord 16 w

/-- The core with an I of 13 bits, the narrowest R5 allows, and a font of zeros. -/
def narrow : Params := { iWidth := 13, font := Vector.replicate 80 0 }

/-- V[x] set to b. -/
def v (x : RegIx) (b : Byte) (s : State) : State := s.setReg x b

/-- Bytes put into memory at a. -/
def bytesAt (a : Nat) (bs : List Byte) (s : State) : State := { s with mem := copyProgram s.params.font s.mem a bs }

/-- The state after one step. -/
def stepped (s : State) : Option State :=
  match step s with
  | .next t => some t
  | .fault _ => none
  | .refused _ => none

/-- What f reads after one step. -/
def look {α : Type} (s : State) (f : State → α) : Option α := (stepped s).map f

/-- The fault status's kind, PC, word and address. -/
def faultFields (t : State) : FaultKind × Word × Word × Nat := (t.fault.kind, t.fault.pc, t.fault.word, t.fault.addr)

/-- D-CLS1 -/
theorem test_cls : look (start 0x00E0 fun s => { s.setReg 0xF 1 with fb := togglePixel (togglePixel 0 0 0) 63 31 }) (fun t => (t.fb, t.reg 0xF, t.pc)) = some (0, 0x01, 0x202) := by decide +kernel
/-- C-RET3 -/
theorem test_ret : look (start 0x00EE fun s => { s with pc := 0x300, sp := 16, stack := s.stack.set 15 0x456 }) (fun t => (t.sp, t.pc)) = some (15, 0x456) := by decide
/-- C-RET2 -/
theorem test_ret_empty : look (start 0x00EE fun s => { s with pc := 0x300 }) (fun t => faultFields t) = some (.stackUnderflow, 0x300, 0x00EE, 0) := by decide
/-- C-JP3 -/
theorem test_jp : look (start 0x1FFF fun s => s) (fun t => t.pc) = some 0xFFF := by decide
/-- C-CALL2 -/
theorem test_call : look (start 0x2300 fun s => { s with pc := 0x400, sp := 3 }) (fun t => (t.sp, t.stack[3], t.pc)) = some (4, 0x402, 0x300) := by decide
/-- C-CALL3 -/
theorem test_call_full : look (start 0x2300 fun s => { s with sp := 16 }) (fun t => (faultFields t, t.sp, t.pc)) = some ((.stackOverflow, 0x200, 0x2300, 0), 16, 0x200) := by decide
/-- C-SE1 -/
theorem test_se_byte : look (start 0x3142 fun s => v 1 0x42 s) (fun t => t.pc) = some 0x204 := by decide
/-- C-SNE2 -/
theorem test_sne_byte : look (start 0x4142 fun s => s) (fun t => t.pc) = some 0x204 := by decide
/-- C-SNE1 -/
theorem test_sne_byte_not : look (start 0x4142 fun s => v 1 0x42 s) (fun t => t.pc) = some 0x202 := by decide
/-- C-SER1 -/
theorem test_se_reg : look (start 0x5120 fun s => v 1 9 (v 2 9 s)) (fun t => t.pc) = some 0x204 := by decide
/-- C-SER2 -/
theorem test_se_reg_not : look (start 0x5120 fun s => v 1 9 (v 2 8 s)) (fun t => t.pc) = some 0x202 := by decide
/-- C-SKIPEND -/
theorem test_skip_at_the_end : look (start 0x3000 fun s => { s with pc := 0xFFE }) (fun t => t.pc) = some 0x1002 := by decide
/-- S1 -/
theorem test_ld_byte : look (start 0x6342 fun s => s) (fun t => (t.reg 3, t.pc)) = some (0x42, 0x202) := by decide
/-- V-LD2 -/
theorem test_ld_byte_vf : look (start 0x6F12 fun s => v 0xF 1 s) (fun t => t.reg 0xF) = some 0x12 := by decide
/-- V-ADDI1 -/
theorem test_add_byte : look (start 0x7102 fun s => v 1 0xFF s) (fun t => (t.reg 1, t.reg 0xF)) = some (0x01, 0x00) := by decide
/-- V-LDR1 -/
theorem test_ld_reg : look (start 0x8120 fun s => v 1 0x11 (v 2 0x22 s)) (fun t => (t.reg 1, t.reg 2)) = some (0x22, 0x22) := by decide
/-- V-OR1 -/
theorem test_or : look (start 0x8121 fun s => v 1 0xF0 (v 2 0x0F (v 0xF 5 s))) (fun t => (t.reg 1, t.reg 0xF)) = some (0xFF, 0x05) := by decide
/-- V-AND1 -/
theorem test_and : look (start 0x8122 fun s => v 1 0xF0 (v 2 0x3C (v 0xF 5 s))) (fun t => (t.reg 1, t.reg 0xF)) = some (0x30, 0x05) := by decide
/-- V-XOR1 -/
theorem test_xor : look (start 0x8123 fun s => v 1 0xF0 (v 2 0x3C s)) (fun t => t.reg 1) = some 0xCC := by decide
/-- V-ADD1 -/
theorem test_add_carry : look (start 0x8124 fun s => v 1 0xFF (v 2 0x01 s)) (fun t => (t.reg 1, t.reg 0xF)) = some (0x00, 0x01) := by decide
/-- V-ADD6 -/
theorem test_add_flag_last : look (start 0x8F14 fun s => v 1 0x01 (v 0xF 0xFF s)) (fun t => t.reg 0xF) = some 0x01 := by decide
/-- V-SUB1 -/
theorem test_sub_borrow : look (start 0x8125 fun s => v 1 0x05 (v 2 0x0A s)) (fun t => (t.reg 1, t.reg 0xF)) = some (0xFB, 0x00) := by decide
/-- V-SUB3 -/
theorem test_sub_equal : look (start 0x8125 fun s => v 1 7 (v 2 7 (v 0xF 1 s))) (fun t => (t.reg 1, t.reg 0xF)) = some (0x00, 0x00) := by decide
/-- V-SHR1 -/
theorem test_shr : look (start 0x8126 fun s => v 1 0x01 (v 2 0xFF s)) (fun t => (t.reg 1, t.reg 0xF)) = some (0x00, 0x01) := by decide
/-- V-SHR4 -/
theorem test_shr_vf : look (start 0x8F06 fun s => v 0xF 0x02 s) (fun t => t.reg 0xF) = some 0x00 := by decide
/-- V-SUBN2 -/
theorem test_subn : look (start 0x8127 fun s => v 1 0x0A (v 2 0x05 s)) (fun t => (t.reg 1, t.reg 0xF)) = some (0xFB, 0x00) := by decide
/-- V-SUBN1 -/
theorem test_subn_flag : look (start 0x8127 fun s => v 1 0x03 (v 2 0x0A s)) (fun t => (t.reg 1, t.reg 0xF)) = some (0x07, 0x01) := by decide
/-- V-SHL2 -/
theorem test_shl : look (start 0x812E fun s => v 1 0x7F (v 0xF 1 s)) (fun t => (t.reg 1, t.reg 0xF)) = some (0xFE, 0x00) := by decide
/-- V-SHL3 -/
theorem test_shl_flag : look (start 0x810E fun s => v 1 0xC1 s) (fun t => (t.reg 1, t.reg 0xF)) = some (0x82, 0x01) := by decide
/-- C-SNER1 -/
theorem test_sne_reg : look (start 0x9120 fun s => v 1 9 (v 2 8 s)) (fun t => t.pc) = some 0x204 := by decide
/-- M-LDI1 -/
theorem test_ld_i : look (start 0xA123 fun s => { s with i := 0xFFF }) (fun t => (t.i, t.pc)) = some (0x123, 0x202) := by decide
/-- C-JPV3 -/
theorem test_jp_v0 : look (start 0xBFFF fun s => v 0 0xFF s) (fun t => t.pc) = some 0x10FE := by decide
/-- V-RND1 -/
theorem test_rnd : look (start 0xC10F fun s => { s with rnd := [0xA5] }) (fun t => (t.reg 1, t.rnd)) = some (0x05, []) := by decide
/-- V-RND2 -/
theorem test_rnd_mask_zero : look (start 0xC100 fun s => v 1 0x77 { s with rnd := [0xA5, 0x3C] }) (fun t => (t.reg 1, t.rnd)) = some (0x00, [0x3C]) := by decide
/-- D-DRW3 -/
theorem test_drw_clips : look (start 0xD011 fun s => v 0 0x3C (bytesAt 0x300 [0xFF] { s with i := 0x300 })) (fun t => (t.fb, t.reg 0xF)) = some (togglePixel (togglePixel (togglePixel (togglePixel 0 60 0) 61 0) 62 0) 63 0, 0x00) := by decide +kernel
/-- D-DRW11 -/
theorem test_drw_faults_midway : look (start 0xD012 fun s => v 0xF 7 (bytesAt 0xFFF [0x80] { s with i := 0xFFF })) (fun t => (t.fb, t.reg 0xF, faultFields t)) = some (togglePixel 0 0 0, 0x07, (.outOfBoundsMemoryAccess, 0x200, 0xD012, 0x1000)) := by decide +kernel
/-- K-SKP1 -/
theorem test_skp : look (start 0xE09E fun s => v 0 5 { s with keypad := 0x0020 }) (fun t => t.pc) = some 0x204 := by decide
/-- K-SKP3 -/
theorem test_skp_above_15 : look (start 0xE09E fun s => v 0 0x10 { s with keypad := 0xFFFF }) (fun t => (faultFields t, t.pc)) = some ((.invalidOpcode, 0x200, 0xE09E, 0), 0x200) := by decide
/-- K-SKNP2 -/
theorem test_sknp : look (start 0xE0A1 fun s => v 0 0x0F s) (fun t => t.pc) = some 0x204 := by decide
/-- K-SKNP1 -/
theorem test_sknp_pressed : look (start 0xE0A1 fun s => v 0 5 { s with keypad := 0x0020 }) (fun t => t.pc) = some 0x202 := by decide
/-- K-DT1 -/
theorem test_ld_dt : look (start 0xF007 fun s => { s with dt := 0x3C }) (fun t => (t.reg 0, t.dt)) = some (0x3C, 0x3C) := by decide
/-- K-WAIT2, cycle 1 -/
theorem test_key_wait_arms : look (start 0xF30A fun s => { s with keypad := 0x0004 }) (fun t => (t.wait, t.waitX, t.keyPrev, t.pc)) = some (true, 3, 0x0004, 0x200) := by decide
/-- K-WAIT2, cycle 4 -/
theorem test_key_wait_completes : look (start 0xF30A fun s => { s with wait := true, waitX := 3, keypad := 0x0120 }) (fun t => (t.reg 3, t.wait, t.waitX, t.keyPrev, t.pc)) = some (0x05, false, 0, 0, 0x202) := by decide
/-- K-DT3 -/
theorem test_set_dt : look (start 0xF015 fun s => v 0 0x20 { s with dt := 5 }) (fun t => (t.dt, t.st)) = some (0x20, 0x00) := by decide
/-- K-ST1 -/
theorem test_set_st : look (start 0xF018 fun s => v 0 0xFF s) (fun t => (stOut t, t.dt)) = some (0xFF, 0x00) := by decide
/-- M-ADDI2 -/
theorem test_add_i_past_fff : look (start 0xF01E fun s => v 0 1 { s with i := 0xFFF }) (fun t => (t.i, t.reg 0xF)) = some (0x1000, 0x00) := by decide
/-- M-ADDI3, and the same at an I_WIDTH of 13, where I wraps at 0x2000 -/
theorem test_add_i_wraps :
    look (start 0xF01E fun s => v 0 2 { s with i := 0xFFFF }) (fun t => t.i) = some 0x0001 ∧
    look ((v 0 2 { State.resetWith narrow with i := 0x1FFF }).withFetchWord 16 0xF01E) (fun t => t.i) = some 0x0001 := by decide
/-- M-FONT2 -/
theorem test_ld_font : look (start 0xF029 fun s => v 0 0x0F s) (fun t => t.i) = some 0x09B := by decide
/-- M-FONT3 -/
theorem test_ld_font_above_f : look (start 0xF029 fun s => v 0 0x10 { s with i := 0x300 }) (fun t => (t.i, faultFields t)) = some (0x300, (.invalidOpcode, 0x200, 0xF029, 0)) := by decide
/-- M-BCD1 -/
theorem test_bcd : look (start 0xF033 fun s => v 0 0xFF { s with i := 0x300 }) (fun t => [0x300, 0x301, 0x302].map t.byte) = some [0x02, 0x05, 0x05] := by decide
/-- M-BCD5 -/
theorem test_bcd_faults_midway : look (start 0xF033 fun s => v 0 0x7B { s with i := 0xFFE }) (fun t => (t.byte 0xFFE, t.byte 0xFFF, faultFields t)) = some (0x01, 0x02, (.outOfBoundsMemoryAccess, 0x200, 0xF033, 0x1000)) := by decide
/-- M-ST1 -/
theorem test_store_regs : look (start 0xF255 fun s => v 0 0x11 (v 1 0x22 (v 2 0x33 (v 3 0x44 { s with i := 0x300 })))) (fun t => ([0x300, 0x301, 0x302, 0x303].map t.byte, t.i)) = some ([0x11, 0x22, 0x33, 0x00], 0x300) := by decide
/-- M-LD2 -/
theorem test_load_font : look (start 0xFF65 fun s => { s with i := 0x050 }) (fun t => [t.reg 0, t.reg 1, t.reg 5, t.reg 0xD, t.reg 0xF]) = some [0xF0, 0x90, 0x20, 0x80, 0xF0] := by decide
/-- M-LD3 -/
theorem test_load_faults_midway : look (start 0xF365 fun s => v 2 0x77 (bytesAt 0xFFE [0xAA, 0xBB] { s with i := 0xFFE })) (fun t => ([t.reg 0, t.reg 1, t.reg 2], faultFields t)) = some ([0xAA, 0xBB, 0x77], (.outOfBoundsMemoryAccess, 0x200, 0xF365, 0x1000)) := by decide

/-! ## The cycle and the host commands -/

/-- C-INV1: 0x5001 faults, and everything but the fault status keeps its value. -/
theorem test_invalid_word :
    look (start 0x5001 fun s => v 0 1 { s with i := 0x123 }) (fun t => (faultFields t, t.reg 0, t.i, t.pc)) =
      some ((.invalidOpcode, 0x200, 0x5001, 0), 0x01, 0x123, 0x200) := by decide
/-- R35: the fetch at 0xFFF fails at its second byte. -/
theorem test_fetch_fff :
    look { State.reset with pc := 0xFFF } (fun t => (faultFields t, t.fault.wordValid)) =
      some ((.outOfBoundsMemoryAccess, 0xFFF, 0, 0x1000), false) := by decide
/-- H3: CYCLE while halted. -/
theorem test_cycle_halted :
    respond .cycle (takeFault .invalidOpcode (some 0x5001) State.reset) = .halted := by decide
/-- H1 and H2: RESUME is accepted only while halted, with their responses. -/
theorem test_resume :
    (resume 0x302 (takeFault .stackUnderflow (some 0x00EE) { State.reset with pc := 0x300 })).pc = 0x302 ∧
    resume 0x400 State.reset = State.reset ∧
    respond (.resume 0x302) (takeFault .stackUnderflow (some 0x00EE) { State.reset with pc := 0x300 }) = .resumed true ∧
    respond (.resume 0x400) State.reset = .resumed false := by decide +kernel
/-- Section 2.8: the second of the three ticks, and the first. -/
theorem test_tick :
    ((tick { State.reset with dt := 2, st := 1 }).dt, (tick { State.reset with dt := 2, st := 1 }).st) = (1, 0) ∧
    ((tick { State.reset with dt := 1 }).dt, (tick { State.reset with dt := 1 }).st) = (0, 0) := by decide
/-- H7 and H8: the length bound of LOAD. -/
theorem test_load_length :
    loadResponse (List.replicate 3585 0) State.reset = .programTooLarge ∧
    loadResponse (List.replicate 3584 0xAA) State.reset = .ok ∧ load [] State.reset = { State.reset with loadable := false } := by
  decide +kernel
/-- H9: LOAD after a cycle. -/
theorem test_load_late : look (start 0x6342 id) (fun t => loadResponse [0x12, 0x00] t) = some .refused := by decide
/-- The host's commands run before the next cycle, first one first (R24, R37). -/
theorem test_inbox :
    look { State.reset with inbox := [.keypad 0x0020, .cycle] } (fun t => (t.keypad, t.pc, t.inbox)) =
      some (0x0020, 0x200, [.cycle]) := by decide
/-- R117: FB_OUT bit y*64 + x. -/
theorem test_fb_out : fbOut { State.reset with fb := togglePixel 0 5 2 } = BitVec.twoPow 2048 133 := by decide +kernel
/-- Log entry 8: an LD [I], V2 that overwrites its own word before it faults is another instruction when retried. -/
theorem test_retry_after_self_overwrite :
    (look (start 0xF255 fun s => v 0 0x12 (v 1 0x34 { s with pc := 0xFFE, i := 0xFFE })) fun t =>
      (t.fault.kind, (stepped (resume 0xFFE t)).map fun u => (u.fault.halted, u.pc))) =
      some (.outOfBoundsMemoryAccess, some (false, 0x234)) := by decide

/-! ## Witnesses: for each obligation with hypotheses, states that meet them, at the boundaries of each clause -/

theorem witness_WordSelectsExactlyItsTableRow :
    (∀ i, (0x5001 : Word) ≠ encode i) ∧ encode (.skpVx 5) = encode (.skpVx 5) := by
  refine ⟨fun i h => ?_, rfl⟩
  have hc := congrArg fieldC h
  have hn := congrArg fieldN h
  cases i <;> first
    | exact absurd h (by decide)
    | exact absurd hc (by simp only [encode, fieldC_formatA, fieldC_formatXB, fieldC_formatXYN]; decide)
    | exact absurd hn (by simp only [encode, fieldN_formatXYN]; decide)

theorem witness_StepRunsTheDecodedInstruction :
    let s := start 0x6342 fun s => { s with pc := 0xFFE }
    s.inbox = [] ∧ ({ s with inbox := [.cycle] } : State).inbox = .cycle :: [] ∧ s.fault.halted = false ∧
      s.pc.toNat ≤ 0xFFE ∧ decodeBytes [s.byte s.pc.toNat, s.byte (s.pc.toNat + 1)] = .ok (.ldVxByte 0x3 0x42, []) := by
  decide

theorem witness_StepPerformsTheFirstCommand :
    State.reset.inbox = [] ∧ ({ State.reset with inbox := [.tick, .cycle] } : State).inbox = .tick :: [.cycle] := by
  decide

theorem witness_FetchIsBigEndian : ({ State.reset with pc := 0xFFE } : State).pc.toNat ≤ 0xFFE := by decide

theorem witness_FetchBeyondMemoryFaults :
    State.reset.fault.halted = false ∧ 0xFFF ≤ ({ State.reset with pc := 0xFFF } : State).pc.toNat ∧
      0xFFF ≤ ({ State.reset with pc := 0xFFFF } : State).pc.toNat := by decide

theorem witness_InvalidWordFaults :
    State.reset.fault.halted = false ∧ fetch (start 0x5001 id) = .ok 0x5001 ∧ InvalidWord (0x5001 : Word).toNat :=
  ⟨rfl, fetch_of_le (by decide), .inr (.inl (by decide))⟩

/-- A core that has faulted. -/
def halted : State := takeFault .stackUnderflow (some 0x00EE) State.reset

theorem witness_HaltedCycleChangesNothing : halted.fault.halted = true := by decide

/-- One cycle of each of three states: a fault, a wait and neither. -/
theorem witness_CycleResponds :
    (∃ t, cycle (start 0x00EE id) = .next t ∧ t.fault.halted = true) ∧
    (∃ t, cycle (start 0xF30A id) = .next t ∧ t.fault.halted = false ∧ t.wait = true) ∧
    (∃ t, cycle (start 0x00E0 id) = .next t ∧ t.fault.halted = false ∧ t.wait = false) ∧
    (start 0x00EE id).fault.halted = false :=
  ⟨⟨_, rfl, rfl⟩, ⟨_, rfl, rfl, rfl⟩, ⟨_, rfl, rfl, rfl⟩, rfl⟩

theorem witness_LaunchStates : (List.replicate 3584 (0xAA : Byte)).length ≤ 3584 ∧ ([] : List Byte).length ≤ 3584 :=
  ⟨Nat.le_of_eq List.length_replicate, Nat.zero_le _⟩

theorem witness_ResetValues : ∃ s, s = State.resetWith narrow := ⟨_, rfl⟩

theorem witness_ResetMeetsTheInvariant : narrow.Ok := by decide

/-- FONT is the parameter's: its first byte reads at 0x050 after reset (R28). -/
theorem test_other_font :
    (State.resetWith { narrow with font := narrow.font.set 0 0x3C }).byte 0x050 = 0x3C ∧
      (State.resetWith narrow).byte 0x050 = 0x00 ∧ State.reset.byte 0x050 = 0xF0 := by decide

/-- A key held and more commands waiting: RESET, LOAD of JP 0x200, and then a tick and a cycle. -/
def hostRun : State :=
  { halted with keypad := 0x0020, inbox := [.reset, .load [0x12, 0x00], .tick, .cycle] }

/-- The launch state hostRun reaches in two steps. -/
def launched : State := load [0x12, 0x00] (resetCommand { hostRun with inbox := [.tick, .cycle] })

theorem launched_launch : Launch launched := ⟨_, _, rfl, rfl⟩

theorem witness_LaunchByCommands :
    hostRun.inbox = .reset :: .load [0x12, 0x00] :: [.tick, .cycle] ∧ ([0x12, 0x00] : List Byte).length ≤ 3584 := by decide

/-- A run of two commands from a launch state, which keeps the key pressed. -/
theorem witness_RunsKeepTheInvariant : ∃ t, Launch launched ∧ launched.params.Ok ∧ Run [.tick, .cycle] launched t :=
  ⟨_, launched_launch, by decide, .perform rfl rfl (.perform rfl rfl (.done _))⟩

/-- A core that waits for a key in LD V3, K at 0x200, with a return address on the stack. -/
def waiting : State :=
  start 0xF30A fun s => { s with wait := true, waitX := 3, loadable := false, sp := 1, stack := s.stack.set 0 0x1000 }

theorem waiting_inv : waiting.Inv where
  params_ok := by decide
  i_lt := by decide
  addr_lt := by decide
  mem_wf := by decide
  stack_le := by decide
  fault_coherent := by constructor <;> decide
  wait_coherent :=
    { word_of_wait := fun _ => fetch_of_le (by decide), running_of_wait := fun _ => rfl,
      idle_zero := fun h => absurd h (by decide) }
  fresh_of_loadable := fun h => absurd h (by decide)

theorem witness_StepKeepsTheInvariant : ∃ t, waiting.Inv ∧ step waiting = .next t := ⟨_, waiting_inv, rfl⟩

theorem witness_StepKeepsTheParameters : ∃ t, step waiting = .next t := ⟨_, rfl⟩

theorem witness_CycleKeepsPcOrWritesAtMost10FE :
    (∃ t, waiting.Inv ∧ cycle waiting = .next t) ∧ fetch (start 0x3000 fun s => { s with pc := 0xFFE }) = .ok 0x3000 :=
  ⟨⟨_, waiting_inv, rfl⟩, fetch_of_le (by decide)⟩

theorem witness_RndMasksOneDraw :
    ({ State.reset with rnd := [0xA5] } : State).rnd = 0xA5 :: [] ∧ State.reset.rnd = [] ∧
      (0x0F : Byte).getLsbD 7 = false := by decide

/-- Targets on both sides of the last address a fetch accepts. -/
theorem witness_JumpsSetPc :
    (∃ t, exec (.jpAddr 0xFFF) State.reset = .next t ∧ 0xFFF ≤ t.pc.toNat) ∧
    (∃ t, exec (.jpV0Addr 0xFFE) (v 0 1 State.reset) = .next t ∧ 0xFFF ≤ t.pc.toNat) ∧
    ∃ t, exec (.jpAddr 0xFFE) State.reset = .next t ∧ ¬ 0xFFF ≤ t.pc.toNat :=
  ⟨⟨_, rfl, by decide⟩, ⟨_, rfl, by decide⟩, ⟨_, rfl, by decide⟩⟩

theorem witness_RegisterSkips :
    State.reset.reg 0 = 0 ∧ ¬ State.reset.reg 0 ≠ 0 ∧ (1 : Nibble) ≠ 0 ∧ (0xF : Nibble) ≠ 0 ∧
      (0x5121 : Word) = formatXYN 0x5 1 2 1 := by decide

theorem witness_CallPushesTheReturnAddress :
    ({ State.reset with sp := 15 } : State).sp.val < 16 ∧ ({ State.reset with sp := 16 } : State).sp.val = 16 := by decide

theorem witness_RetPopsTheReturnAddress : 0 < ({ State.reset with sp := 1 } : State).sp.val ∧ State.reset.sp.val = 0 := by
  decide

theorem witness_CallThenRetReturns :
    ∃ t, ({ State.reset with sp := 15 } : State).sp.val < 16 ∧
      exec (.callAddr 0x300) { State.reset with sp := 15 } = .next t ∧
      ({ t with pc := 0x310, i := 5 } : State).sp = t.sp ∧ ({ t with pc := 0x310, i := 5 } : State).stack[15] = t.stack[15] :=
  ⟨_, by decide, rfl, rfl, rfl⟩

theorem witness_SettingI :
    ((v 0 0xF State.reset).reg 0).toNat ≤ 0xF ∧ 0xF < ((v 0 0x10 State.reset).reg 0).toNat := by decide

/-- I at a value, in the reset state. -/
def iAt (a : Nat) : State := { State.reset with i := a }

theorem witness_BcdStoresThreeDigits :
    (iAt 0xFFD).memWf ∧ (iAt 0xFFD).i + 3 ≤ 4096 ∧ 4096 < (iAt 0xFFE).i + 3 := by decide

theorem witness_RegistersAreStoredFromI :
    (iAt 0xFF0).memWf ∧ (iAt 0xFF0).i + 16 ≤ 4096 ∧ 4096 < (iAt 0xFF1).i + 16 ∧
      4096 < (iAt 0xFFFF).i + 1 := by decide

theorem witness_RegistersAreLoadedFromI :
    (iAt 0xFFF).i + (0 : RegIx).toNat < 4096 ∧ 4096 ≤ (iAt 0xFFF).i + (1 : RegIx).toNat := by decide

/-- The store, then other registers and another byte elsewhere, at the last I it fits at. -/
theorem witness_StoreThenLoadRestoresRegisters :
    ∃ t, (iAt 0xFFE).memWf ∧ (iAt 0xFFE).i + (1 : RegIx).toNat < 4096 ∧
      exec (.ldMemVx 1) (iAt 0xFFE) = .next t ∧ (bytesAt 0x300 [1] (t.setReg 0 7)).i = (iAt 0xFFE).i ∧
      ∀ k ≤ (1 : RegIx).toNat, (bytesAt 0x300 [1] (t.setReg 0 7)).byte (0xFFE + k) = t.byte (0xFFE + k) :=
  ⟨_, by decide, by decide, rfl, rfl, by decide⟩

/-- The last two registers of LD [I], VF and the last two digits of LD B, V0, each at the last I they fit at, and
a store that faults after its first two bytes. -/
theorem witness_StoredWordIsFetched :
    (∃ t, (iAt 0xFF0).memWf ∧ (iAt 0xFF0).i + 14 + 1 < 4096 ∧ exec (.ldMemVx 0xF) (iAt 0xFF0) = .next t ∧
      14 + 1 ≤ (0xF : RegIx).toNat ∧ ({ t with pc := 0xFFE } : State).pc.toNat = (iAt 0xFF0).i + 14 ∧
      ({ t with pc := 0xFFE } : State).byte 0xFFE = t.byte 0xFFE ∧
      ({ t with pc := 0xFFE } : State).byte 0xFFF = t.byte 0xFFF) ∧
    (∃ t, exec (.ldBVx 0) (iAt 0xFFD) = .next t ∧ (iAt 0xFFD).memWf ∧ (iAt 0xFFD).i + 1 + 1 < 4096 ∧ 1 + 1 ≤ 2 ∧
      ({ t with pc := 0xFFE } : State).pc.toNat = (iAt 0xFFD).i + 1) ∧
    ∃ t, exec (.ldBVx 0) (iAt 0xFFE) = .next t ∧ t.fault.halted = true ∧ (iAt 0xFFE).i + 0 + 1 < 4096 :=
  ⟨⟨_, by decide, by decide, rfl, by decide, rfl, rfl, rfl⟩, ⟨_, rfl, by decide, by decide, by decide, rfl⟩,
    ⟨_, rfl, rfl, by decide⟩⟩

/-- The glyph of 0 drawn at (0, 0), over a clear screen and over itself: its first row is 0xF0. -/
theorem witness_DrwDrawsTheSprite :
    SpriteReadable (iAt 0xFFFF) 0 ∧ SpriteReadable (iAt 0xFFF) 1 ∧ SpriteReadable (iAt 0x050) 1 ∧
      Collides { iAt 0x050 with fb := togglePixel 0 0 0 } 0 0 1 ∧ ¬ Collides (iAt 0x050) 0 0 1 := by
  refine ⟨.inl rfl, .inr (by decide), .inr (by decide), ⟨0, 0, ?_⟩, ?_⟩
  · unfold SpriteOne; decide +kernel
  · rintro ⟨px, py, -, -, -, hp⟩
    simp [pixel, iAt, State.reset, State.resetWith] at hp

theorem witness_DrwFaultsAtTheFirstRowOutside :
    ¬ SpriteReadable (iAt 0xFFF) 2 ∧ ¬ SpriteReadable (iAt 0xFFFF) 1 ∧ ¬ SpriteReadable (iAt 0xFF2) 15 := by
  simp only [SpriteReadable]; decide

/-- Between the draws another byte of memory, PC and a register other than the two change. -/
theorem witness_DrawingTwiceRestoresTheScreen :
    ∃ t, SpriteReadable (iAt 0x050) 5 ∧ exec (.drwVxVyNibble 0 1 5) (iAt 0x050) = .next t ∧
      let u := bytesAt 0x300 [1] { t.setReg 2 7 with pc := 0x300 }
      u.fb = t.fb ∧ u.i = (iAt 0x050).i ∧ (∀ j < (5 : Nibble).toNat, u.byte (0x050 + j) = (iAt 0x050).byte (0x050 + j)) ∧
        u.reg 0 = (iAt 0x050).reg 0 ∧ u.reg 1 = (iAt 0x050).reg 1 :=
  ⟨_, .inr (by decide), rfl, rfl, rfl, by decide, by decide, by decide⟩

theorem witness_KeySkips :
    ((v 0 15 State.reset).reg 0).toNat ≤ 15 ∧ 15 < ((v 0 16 State.reset).reg 0).toNat := by decide

/-- Key 15 newly pressed while key 2 is still held. -/
theorem witness_KeyWaitCompletesOnANewKey :
    let s : State := { State.reset with wait := true, keypad := 0x8004, keyPrev := 0x0004 }
    s.wait = true ∧ 15 < 16 ∧ s.keypad.getLsbD 15 = true ∧ s.keyPrev.getLsbD 15 = false ∧
      ∀ j < 15, s.keypad.getLsbD j = true → s.keyPrev.getLsbD j = true := by decide

theorem witness_KeyWaitHoldsPc :
    State.reset.wait = false ∧
    let s : State := { State.reset with wait := true, keypad := 0x8004, keyPrev := 0x8004 }
    s.wait = true ∧ ∀ k < 16, s.keypad.getLsbD k = true → s.keyPrev.getLsbD k = true := by decide

theorem witness_ResumeOnlyWhileHalted : halted.fault.halted = true ∧ State.reset.fault.halted = false := by decide

theorem witness_LoadOnceBeforeTheFirstCycle :
    State.reset.memWf ∧ State.reset.loadable = true ∧ (List.replicate 3584 (0 : Byte)).length ≤ 3584 ∧
      3584 < (List.replicate 3585 (0 : Byte)).length ∧ ({ State.reset with loadable := false } : State).loadable = false := by
  exact ⟨Memory.wf_nil, rfl, Nat.le_of_eq List.length_replicate, Nat.le_of_eq List.length_replicate.symm, rfl⟩

/-- A fetch fault, an invalid word, and an LD B that stored a byte before it faulted, away from PC. -/
theorem witness_RetryFaultsAgain :
    (∃ t, cycle { State.reset with pc := 0xFFF } = .next t ∧ t.fault.halted = true ∧
      t.byte 0xFFF = State.reset.byte 0xFFF ∧ t.byte 0x1000 = State.reset.byte 0x1000) ∧
    (∃ t, cycle State.reset = .next t ∧ t.fault.halted = true ∧ t.byte 0x200 = State.reset.byte 0x200 ∧
      t.byte 0x201 = State.reset.byte 0x201) ∧
    (∃ t, cycle (start 0xF033 fun s => v 0 0xC8 { s with i := 0xFFF }) = .next t ∧ t.fault.halted = true ∧
      t.byte 0xFFF = 2 ∧ t.byte 0x200 = 0xF0 ∧ t.byte 0x201 = 0x33) ∧
    State.reset.fault.halted = false :=
  ⟨⟨_, rfl, rfl, rfl, rfl⟩, ⟨_, rfl, rfl, rfl, rfl⟩, ⟨_, rfl, rfl, by decide, by decide, by decide⟩, rfl⟩

/-- C-JP2: JP 0x200 at 0x200 is idle. -/
theorem witness_IdleStaysIdle : (start 0x1200 id).Idle := ⟨rfl, rfl, 0x200, fetch_of_le (by decide), rfl⟩

/-- A RET that faults and one that does not, and a fault of each instruction that keeps a part of its work. -/
theorem witness_InstructionsFaultExactlyAsListed :
    (∃ t, exec .ret State.reset = .next t ∧ faultOf .ret State.reset = some (3, none)) ∧
    (∃ t, exec .ret { State.reset with sp := 1 } = .next t ∧ faultOf .ret { State.reset with sp := 1 } = none) ∧
    (∃ t, exec (.drwVxVyNibble 0 0 2) (iAt 0xFFF) = .next t ∧
      faultOf (.drwVxVyNibble 0 0 2) (iAt 0xFFF) = some (4, some 4096)) ∧
    (∃ t, exec (.ldBVx 0) (iAt 0xFFE) = .next t ∧ faultOf (.ldBVx 0) (iAt 0xFFE) = some (4, some 4096)) ∧
    (∃ t, exec (.ldMemVx 1) (iAt 0xFFF) = .next t ∧ faultOf (.ldMemVx 1) (iAt 0xFFF) = some (4, some 4096)) ∧
    (∃ t, exec (.ldVxMem 0) (iAt 0x1000) = .next t ∧ faultOf (.ldVxMem 0) (iAt 0x1000) = some (4, some 4096)) ∧
    (iAt 0xFFE).memWf :=
  ⟨⟨_, rfl, rfl⟩, ⟨_, rfl, rfl⟩, ⟨_, rfl, rfl⟩, ⟨_, rfl, rfl⟩, ⟨_, rfl, rfl⟩, ⟨_, rfl, rfl⟩, by decide⟩

theorem witness_EveryInstructionSetsPcByItsClass :
    (∃ t, exec (.drwVxVyNibble 0 0 1) (iAt 0x1000) = .next t ∧ faultOf (.drwVxVyNibble 0 0 1) (iAt 0x1000) ≠ none) ∧
    ∃ t, exec (.drwVxVyNibble 0 0 1) (iAt 0xFFF) = .next t ∧ faultOf (.drwVxVyNibble 0 0 1) (iAt 0xFFF) = none :=
  ⟨⟨_, rfl, by decide⟩, ⟨_, rfl, by decide⟩⟩

theorem witness_OnlyTheNamedInstructionsWrite :
    ∃ t, exec (.addVxVy 1 2) State.reset = .next t ∧ writesReg (.addVxVy 1 2) 3 = false ∧
      writesI (.addVxVy 1 2) = false ∧ writesStack (.addVxVy 1 2) = false ∧ writesDt (.addVxVy 1 2) = false ∧
      writesSt (.addVxVy 1 2) = false ∧ writesMem (.addVxVy 1 2) = false ∧ writesFb (.addVxVy 1 2) = false ∧
      writesWait (.addVxVy 1 2) = false ∧ consumesRandom (.addVxVy 1 2) = false :=
  ⟨_, rfl, by decide⟩

theorem witness_InputsAreReadOnlyByTheirInstructions :
    readsKeypad (.rndVxByte 0 0xFF) = false ∧ consumesRandom (.ldVxK 0) = false := by decide

theorem witness_OutputsAreNotReadBack :
    writesSt (.ldVxDt 0) = false ∧ writesSt (.ldStVx 0) = true ∧ writesFb (.ldVxDt 0) = false := by decide

theorem witness_TickCommutesWithOtherInstructions :
    ∃ t, usesTimers (.addIVx 0) = false ∧ exec (.addIVx 0) { State.reset with dt := 1 } = .next t := ⟨_, rfl, rfl⟩

/-- A line of each kind: accepted and refused. -/
theorem witness_AssemblerAcceptsExactlyWellFormedLines :
    (Line.mk .ld [.memI, .v 15]).wf = true ∧ (Line.mk .ld [.memI, .v 16]).wf = false := by decide

end Sys2Proof.Tests
end

section
/-! SUPPORT. What the four instructions with a sequence of memory accesses do on each side of their bounds check
(spec/20_memory.md R32, R33, spec/40_display.md R59 to R61, spec/43_index_memory.md R93 to R95). -/

namespace Sys2Proof.Machine

open Sys2Proof.Claims

variable {s : State}

theorem bcdDigits_length (b : Byte) : (bcdDigits b).length = 3 := rfl

theorem regsUpTo_length (s : State) (x : RegIx) : (s.regsUpTo x).length = x.toNat + 1 := by
  have := x.isLt
  simp only [State.regsUpTo, List.length_take, Vector.length_toList]
  omega

/-- A store from I that ends inside the memory makes every access. -/
theorem storeBytes_cause_of_le {f : Font} {m : Memory} {a n : Nat} {bs : List Byte} (hn : bs.length = n)
    (h : a + n ≤ 4096) : (storeBytes f m a bs).2 = none := by
  rw [storeBytes_cause, if_pos (.inr (hn ▸ h))]

/-- A store that does not end inside the memory fails at the first address outside. -/
theorem storeBytes_cause_of_gt {f : Font} {m : Memory} {a n : Nat} {bs : List Byte} (hn : bs.length = n + 1)
    (h : 4096 < a + (n + 1)) : (storeBytes f m a bs).2 = some (.outOfBounds (max a 4096)) := by
  have hne : bs ≠ [] := List.ne_nil_of_length_eq_add_one hn
  rw [storeBytes_cause, if_neg (by simp only [hne, false_or]; omega)]

/-! ## LD B, Vx (R93) -/

theorem exec_ldBVx_of_le {x : RegIx} (h : s.i + 3 ≤ 4096) :
    exec (.ldBVx x) s = .next
      ({ s with mem := (storeBytes s.params.font s.mem s.i (bcdDigits (s.reg x))).1 }.advance 2) := by
  simp only [exec, execLdBVx, storeBytes_cause_of_le (bcdDigits_length _) h, finish_none]

theorem exec_ldBVx_of_gt {x : RegIx} (h : 4096 < s.i + 3) :
    exec (.ldBVx x) s = .next (takeFault (.outOfBounds (max s.i 4096)) (some (encode (.ldBVx x)))
      { s with mem := (storeBytes s.params.font s.mem s.i (bcdDigits (s.reg x))).1 }) := by
  simp only [exec, execLdBVx, storeBytes_cause_of_gt (bcdDigits_length _) h, finish_some]

/-! ## LD [I], Vx (R94) -/

theorem exec_ldMemVx_of_le {x : RegIx} (h : s.i + (x.toNat + 1) ≤ 4096) :
    exec (.ldMemVx x) s = .next
      ({ s with mem := (storeBytes s.params.font s.mem s.i (s.regsUpTo x)).1 }.advance 2) := by
  simp only [exec, execLdMemVx, storeBytes_cause_of_le (regsUpTo_length s x) h, finish_none]

theorem exec_ldMemVx_of_gt {x : RegIx} (h : 4096 < s.i + (x.toNat + 1)) :
    exec (.ldMemVx x) s = .next (takeFault (.outOfBounds (max s.i 4096)) (some (encode (.ldMemVx x)))
      { s with mem := (storeBytes s.params.font s.mem s.i (s.regsUpTo x)).1 }) := by
  simp only [exec, execLdMemVx, storeBytes_cause_of_gt (regsUpTo_length s x) h, finish_some]

/-! ## LD Vx, [I] (R95) -/

theorem exec_ldVxMem_of_le {x : RegIx} (h : s.i + (x.toNat + 1) ≤ 4096) :
    exec (.ldVxMem x) s = .next
      ({ s with v := (loadRegs s.params.font s.mem s.v s.i 0 (x.toNat + 1)).1 }.advance 2) := by
  simp only [exec, execLdVxMem, loadRegs_cause, h, or_true, if_true, finish_none]

theorem exec_ldVxMem_of_gt {x : RegIx} (h : 4096 < s.i + (x.toNat + 1)) :
    exec (.ldVxMem x) s = .next (takeFault (.outOfBounds (max s.i 4096)) (some (encode (.ldVxMem x)))
      { s with v := (loadRegs s.params.font s.mem s.v s.i 0 (x.toNat + 1)).1 }) := by
  simp only [exec, execLdVxMem, loadRegs_cause, Nat.not_le.mpr h, Nat.succ_ne_zero, or_false, if_false,
    finish_some]

/-! ## DRW Vx, Vy, nibble (R59 to R61) -/

/-- The height as the draw engine counts it. -/
theorem spriteReadable_iff {n : Nibble} : SpriteReadable s n ↔ n.toNat = 0 ∨ s.i + n.toNat ≤ 4096 :=
  or_congr BitVec.toNat_eq Iff.rfl

theorem exec_drwVxVyNibble_of_readable {x y : RegIx} {n : Nibble} (h : SpriteReadable s n) :
    exec (.drwVxVyNibble x y n) s = .next
      (({ s with fb := (s.sprite x y n).1.fb }.setFlag (s.sprite x y n).1.col).advance 2) := by
  have hc : (s.sprite x y n).2 = none := by rw [State.sprite, drawRows_cause, if_pos (spriteReadable_iff.mp h)]
  simp only [exec, execDrwVxVyNibble, hc]

theorem exec_drwVxVyNibble_of_not_readable {x y : RegIx} {n : Nibble} (h : ¬ SpriteReadable s n) :
    exec (.drwVxVyNibble x y n) s = .next (takeFault (.outOfBounds (max s.i 4096))
      (some (encode (.drwVxVyNibble x y n))) { s with fb := (s.sprite x y n).1.fb }) := by
  have hc : (s.sprite x y n).2 = some (.outOfBounds (max s.i 4096)) := by
    rw [State.sprite, drawRows_cause, if_neg (spriteReadable_iff.not.mp h)]
  simp only [exec, execDrwVxVyNibble, hc, raise_eq]

end Sys2Proof.Machine
end

section
/-! SUPPORT. The next PC of each instruction (spec/30_encoding.md R51): one lemma per instruction that can fault
or choose between two next PCs, on each side of its condition. -/

namespace Sys2Proof.Machine

open Sys2Proof.Claims

variable {i : Instr} {s u : State}

/-- The instruction sets PC by its class in this state: to nextPc when it raises no fault, else to PC itself. -/
def SetsPcByClass (i : Instr) (s : State) : Prop :=
  ∀ t, exec i s = .next t → (faultOf i s = none → t.pc = nextPc i s) ∧ (faultOf i s ≠ none → t.pc = s.pc)

theorem SetsPcByClass.of_completes (hx : exec i s = .next u) (hf : faultOf i s = none)
    (hpc : u.pc = nextPc i s) : SetsPcByClass i s := by
  intro t ht
  obtain rfl : u = t := by simpa only [hx, Host.Outcome.next.injEq] using ht
  exact ⟨fun _ => hpc, fun h => absurd hf h⟩

/-- Fault entry leaves PC as it is, whatever the instruction did before its failing access (R105). -/
theorem SetsPcByClass.of_faults {c : FaultCause} {w : Option Word} {e : BitVec 3 × Option Nat}
    (hx : exec i s = .next (takeFault c w u)) (hf : faultOf i s = some e) (hpc : u.pc = s.pc) :
    SetsPcByClass i s := by
  intro t ht
  obtain rfl : takeFault c w u = t := by simpa only [hx, Host.Outcome.next.injEq] using ht
  exact ⟨fun h => by simp [hf] at h, fun _ => hpc⟩

/-! ## Jumps, CALL and RET -/

/-- The exact sum of R74 fits PC: the target computed as a number is the sum of the two words. -/
theorem indexedTarget_eq (nnn : Addr12) (b : Byte) : indexedTarget nnn b = nnn.setWidth 16 + b.setWidth 16 := by
  apply BitVec.eq_of_toNat_eq
  simp [indexedTarget]

theorem setsPcByClass_callAddr (nnn : Addr12) : SetsPcByClass (.callAddr nnn) s := by
  rcases Nat.lt_or_ge s.sp.val 16 with h | h
  · exact .of_completes (exec_callAddr_of_lt nnn h) (if_neg (by omega)) rfl
  · have hfull : s.sp.val = 16 := by omega
    exact .of_faults (exec_callAddr_of_full nnn hfull) (if_pos hfull) rfl

theorem setsPcByClass_ret : SetsPcByClass .ret s := by
  rcases Nat.eq_zero_or_pos s.sp.val with h | h
  · exact .of_faults (exec_ret_of_zero h) (if_pos h) rfl
  · exact .of_completes (exec_ret_of_pos h) (if_neg (by omega)) rfl

/-! ## The instructions with an operand-domain check (R104) -/

theorem setsPcByClass_skpVx (x : RegIx) : SetsPcByClass (.skpVx x) s := by
  rcases Nat.lt_or_ge 15 (s.reg x).toNat with h | h
  · exact .of_faults (exec_skpVx_of_gt h) (if_pos h) rfl
  · exact .of_completes (exec_skpVx_of_le h) (if_neg (by omega)) (skipIf_pc s _)

theorem setsPcByClass_sknpVx (x : RegIx) : SetsPcByClass (.sknpVx x) s := by
  rcases Nat.lt_or_ge 15 (s.reg x).toNat with h | h
  · exact .of_faults (exec_sknpVx_of_gt h) (if_pos h) rfl
  · exact .of_completes (exec_sknpVx_of_le h) (if_neg (by omega)) (skipIf_pc s _)

theorem setsPcByClass_ldIVx (x : RegIx) : SetsPcByClass (.ldIVx x) s := by
  rcases Nat.lt_or_ge 15 (s.reg x).toNat with h | h
  · exact .of_faults (exec_ldIVx_of_gt h) (if_pos h) rfl
  · exact .of_completes (exec_ldIVx_of_le h) (if_neg (by omega)) rfl

/-! ## The instructions that access memory (R104) -/

theorem setsPcByClass_drwVxVyNibble (x y : RegIx) (n : Nibble) : SetsPcByClass (.drwVxVyNibble x y n) s := by
  by_cases h : SpriteReadable s n
  · exact .of_completes (exec_drwVxVyNibble_of_readable h) (if_pos (spriteReadable_iff.mp h)) rfl
  · exact .of_faults (exec_drwVxVyNibble_of_not_readable h) (if_neg (spriteReadable_iff.not.mp h)) rfl

theorem setsPcByClass_ldBVx (x : RegIx) : SetsPcByClass (.ldBVx x) s := by
  rcases Nat.lt_or_ge 4096 (s.i + 3) with h | h
  · exact .of_faults (exec_ldBVx_of_gt h) (if_neg (by omega)) rfl
  · exact .of_completes (exec_ldBVx_of_le h) (if_pos (.inr h)) rfl

theorem setsPcByClass_ldMemVx (x : RegIx) : SetsPcByClass (.ldMemVx x) s := by
  rcases Nat.lt_or_ge 4096 (s.i + (x.toNat + 1)) with h | h
  · exact .of_faults (exec_ldMemVx_of_gt h) (if_neg (by omega)) rfl
  · exact .of_completes (exec_ldMemVx_of_le h) (if_pos (.inr h)) rfl

theorem setsPcByClass_ldVxMem (x : RegIx) : SetsPcByClass (.ldVxMem x) s := by
  rcases Nat.lt_or_ge 4096 (s.i + (x.toNat + 1)) with h | h
  · exact .of_faults (exec_ldVxMem_of_gt h) (if_neg (by omega)) rfl
  · exact .of_completes (exec_ldVxMem_of_le h) (if_pos (.inr h)) rfl

/-! ## LD Vx, K (R99) -/

/-- PC moves on only when the wait completes; arming it and sampling the keypad again hold PC. -/
theorem setsPcByClass_ldVxK (x : RegIx) : SetsPcByClass (.ldVxK x) s := by
  cases h : s.wait with
  | false => exact .of_completes (exec_ldVxK_arms x h) rfl (if_neg (by simp [h])).symm
  | true =>
    by_cases hk : s.newKeys = 0
    · exact .of_completes (exec_ldVxK_samples x h hk) rfl (if_neg fun hc => hc.2 hk).symm
    · exact .of_completes (exec_ldVxK_completes x h hk) rfl (if_pos ⟨h, hk⟩).symm

/-- Settles O55, by the class of the instruction: what is left beside the instructions with a condition never
faults and goes on to PC + 2. -/
theorem everyInstructionSetsPcByItsClass : Obligations.EveryInstructionSetsPcByItsClass := by
  unfold Obligations.EveryInstructionSetsPcByItsClass
  intro i s
  show SetsPcByClass i s
  cases i with
  | jpAddr nnn => exact .of_completes rfl rfl rfl
  | jpV0Addr nnn => exact .of_completes rfl rfl (indexedTarget_eq nnn (s.reg 0))
  | callAddr nnn => exact setsPcByClass_callAddr nnn
  | ret => exact setsPcByClass_ret
  | seVxByte | sneVxByte | seVxVy | sneVxVy => exact .of_completes rfl rfl (skipIf_pc s _)
  | skpVx x => exact setsPcByClass_skpVx x
  | sknpVx x => exact setsPcByClass_sknpVx x
  | ldIVx x => exact setsPcByClass_ldIVx x
  | drwVxVyNibble x y n => exact setsPcByClass_drwVxVyNibble x y n
  | ldBVx x => exact setsPcByClass_ldBVx x
  | ldMemVx x => exact setsPcByClass_ldMemVx x
  | ldVxMem x => exact setsPcByClass_ldVxMem x
  | ldVxK x => exact setsPcByClass_ldVxK x
  | cls | ldVxByte | addVxByte | ldVxVy | orVxVy | andVxVy | xorVxVy | addVxVy | subVxVy | shrVxVy | subnVxVy
  | shlVxVy | ldIAddr | rndVxByte | ldVxDt | ldDtVx | ldStVx | addIVx => exact .of_completes rfl rfl rfl

end Sys2Proof.Machine
end

section
/-! SUPPORT. CLS (spec/40_display.md R55): the cleared framebuffer and the one next state of CLS. -/

namespace Sys2Proof.Machine

open Sys2Proof.Claims

@[simp] theorem pixel_zero (px py : Nat) : pixel 0 px py = false := BitVec.getLsbD_zero

/-- CLS completes whatever the state. -/
theorem exec_cls (s : State) : exec .cls s = .next ({ s with fb := 0 }.advance 2) := rfl

/-- CLS keeps what a byte read depends on: the parameters and MEM. -/
theorem sameMemory_cls (s : State) : SameMemory s ({ s with fb := 0 }.advance 2) :=
  byte_congr rfl rfl

/-- Settles O39: the next state is the old one with every pixel 0 and PC + 2, so the frame is its definition. -/
theorem clsClearsTheScreen : Obligations.ClsClearsTheScreen := by
  unfold Obligations.ClsClearsTheScreen
  intro s
  refine ⟨_, exec_cls s, ?pixels, ?pc, ?frame, sameMemory_cls s⟩
  case pixels =>
    intro px py _ _
    rw [advance_fb, pixel_zero]
  case pc => rw [advance_pc]
  case frame => rfl

end Sys2Proof.Machine
end

section
/-! SUPPORT. The two jumps (spec/41_control.md R66, R74): each has one next state, the old one with PC at the
exact target. -/

namespace Sys2Proof.Machine

open Sys2Proof.Claims

variable {i : Instr} {s : State} {p : Word} {n : Nat}

/-- Only PC differs after a write of PC, whatever is written. -/
theorem onlyPc_setPc (s : State) (p : Word) : OnlyPc s { s with pc := p } :=
  ⟨rfl, byte_congr rfl rfl⟩

/-- The field's value: a jump target is not cut. -/
theorem target_toNat (nnn : Addr12) : (target nnn).toNat = nnn.toNat :=
  BitVec.toNat_setWidth_of_le (by decide)

/-- The exact sum: at most 0xFFF + 0xFF, so the 16 bits of PC neither wrap nor mask it. -/
theorem indexedTarget_toNat (nnn : Addr12) (b : Byte) : (indexedTarget nnn b).toNat = nnn.toNat + b.toNat := by
  have hn := nnn.isLt
  have hb := b.isLt
  rw [indexedTarget, BitVec.toNat_ofNat, Nat.mod_eq_of_lt (by omega)]

/-- The instruction completes with PC = n and nothing else changed, and the next fetch faults on 0xFFF or more. -/
def JumpsTo (i : Instr) (n : Nat) (s : State) : Prop :=
  ∃ t, exec i s = .next t ∧ t.pc.toNat = n ∧ OnlyPc s t ∧
    (0xFFF ≤ t.pc.toNat → ∃ a, fetch t = .error (.outOfBounds a))

theorem JumpsTo.of_setsPc (hx : exec i s = .next { s with pc := p }) (hp : p.toNat = n) : JumpsTo i n s :=
  ⟨_, hx, hp, onlyPc_setPc s p, fun h => ⟨_, fetch_of_ge h⟩⟩

/-- Settles O27: both jumps write PC alone, and their targets as PC holds them are the exact numbers. -/
theorem jumpsSetPc : Obligations.JumpsSetPc := by
  unfold Obligations.JumpsSetPc
  intro s nnn
  have hjp : JumpsTo (.jpAddr nnn) nnn.toNat s := .of_setsPc rfl (target_toNat nnn)
  have hjpV0 : JumpsTo (.jpV0Addr nnn) (nnn.toNat + (s.reg 0).toNat) s :=
    .of_setsPc rfl (indexedTarget_toNat nnn (s.reg 0))
  exact ⟨hjp, hjpV0⟩

end Sys2Proof.Machine
end

section
/-! SUPPORT. The skips on registers and immediates (spec/41_control.md R70 to R73), and the words beside 5xy0 and
9xy0 that select no instruction (spec/30_encoding.md R47). -/

namespace Sys2Proof.Machine

open Sys2Proof.Claims

variable {i : Instr} {s : State} {c : Bool} {P : Prop} {x y : RegIx} {n : Nibble}

/-! ## The end of a skip (R51) -/

theorem onlyPc_skipIf (s : State) (c : Bool) : OnlyPc s (s.skipIf c) := by
  cases c with
  | false => exact onlyPc_setPc s (s.pc + 2)
  | true => exact onlyPc_setPc s (s.pc + 4)

/-- An instruction that ends in skipIf skips on the condition its Boolean decides. -/
theorem skips_of_skipIf (hx : exec i s = .next (s.skipIf c)) (hc : c = true ↔ P) : Skips i P s := by
  refine ⟨_, hx, ?holds, ?fails, onlyPc_skipIf s c⟩
  case holds => exact fun hP => by rw [skipIf_pc, if_pos (hc.mpr hP)]
  case fails => exact fun hP => by rw [skipIf_pc, if_neg (hc.not.mpr hP)]

/-! ## The invalid words of categories 5 and 9 (R47) -/

theorem decodeWord_format5 (hn : n ≠ 0) : decodeWord (formatXYN 0x5 x y n) = .error .invalid5 := by
  simp [decodeWord, describe, recognise, show n ≠ 0#4 from hn]

theorem decodeWord_format9 (hn : n ≠ 0) : decodeWord (formatXYN 0x9 x y n) = .error .invalid9 := by
  simp [decodeWord, describe, recognise, show n ≠ 0#4 from hn]

/-- A word that selects no instruction is fault entry with that word (R47, R105). -/
theorem runWord_of_invalid {w : Word} {e : Rejection} (s : State) (hd : decodeWord w = .error e) :
    runWord w s = .next (takeFault .invalidOpcode (some w) s) := by
  simp only [runWord, hd]

theorem onlyFault_takeFault (s : State) (f : FaultCause) (w : Option Word) : OnlyFault s (takeFault f w s) :=
  ⟨rfl, byte_takeFault s f w⟩

/-- Settles O28, by the one end of the four skips and by the decoder's rejection of the two invalid formats. -/
theorem registerSkips : Obligations.RegisterSkips := by
  unfold Obligations.RegisterSkips
  intro s x y nn n
  refine ⟨skips_of_skipIf rfl beq_iff_eq, skips_of_skipIf rfl bne_iff_ne, skips_of_skipIf rfl beq_iff_eq,
    skips_of_skipIf rfl bne_iff_ne, ?invalid⟩
  case invalid =>
    intro hn w hw
    obtain ⟨e, hd⟩ : ∃ e, decodeWord w = .error e := by
      obtain rfl | rfl := hw
      · exact ⟨_, decodeWord_format5 hn⟩
      · exact ⟨_, decodeWord_format9 hn⟩
    exact ⟨_, runWord_of_invalid s hd, rfl, rfl, onlyFault_takeFault s _ _⟩

end Sys2Proof.Machine
end

section
/-! SUPPORT. The ALU group (spec/42_alu.md R76 to R87, R101): the two ways an instruction ends in register writes,
and each result and flag as the number its rule gives. -/

namespace Sys2Proof.Machine

open Sys2Proof.Claims

variable {i : Instr} {s : State} {x : RegIx} {b : Byte} {c : Bool}

/-! ## One register write -/

/-- An instruction that ends in one register write and PC + 2 has the frame of the plain register writes. -/
theorem writesReg_of_setReg (hx : exec i s = .next ((s.setReg x b).advance 2)) : WritesReg i x b s := by
  refine ⟨_, hx, ?result, ?others, rfl, rfl, byte_congr rfl rfl⟩
  case result => rw [reg_advance, reg_setReg_same]
  case others => exact fun k hk => by rw [reg_advance, reg_setReg_ne s b hk]

/-- Settles O24: each of the seven ends in one register write; a byte sum is the sum modulo 256. -/
theorem plainRegisterWrites : Obligations.PlainRegisterWrites := by
  unfold Obligations.PlainRegisterWrites
  intro s x y nn
  have hadd : WritesReg (.addVxByte x nn) x (BitVec.ofNat 8 ((s.reg x).toNat + nn.toNat)) s := by
    rw [← BitVec.add_def]
    exact writesReg_of_setReg rfl
  exact ⟨writesReg_of_setReg rfl, hadd, writesReg_of_setReg rfl, writesReg_of_setReg rfl, writesReg_of_setReg rfl,
    writesReg_of_setReg rfl, writesReg_of_setReg rfl⟩

/-! ## A register write, then the flag -/

theorem bitByte_toNat (c : Bool) : (bitByte c).toNat = c.toNat := by cases c <;> rfl

/-- An instruction that ends in writeFlagged writes the numbers its result and its flag stand for, VF last. -/
theorem writesFlagged_of_writeFlagged {r f : Nat} (hx : exec i s = .next (s.writeFlagged x b c))
    (hr : b.toNat = r) (hf : c.toNat = f) : WritesFlagged i x r f s := by
  refine ⟨_, hx, ?result, ?flag, ?others, rfl, rfl, byte_congr rfl rfl⟩
  case result => exact fun hne => by rw [reg_writeFlagged_dest s b c hne, hr]
  case flag =>
    show ((s.writeFlagged x b c).reg flagIx).toNat = f
    rw [reg_writeFlagged_flag, bitByte_toNat, hf]
  case others => exact fun k hk hkF => reg_writeFlagged_ne s b c hkF hk

/-! ## The flags as numbers (R83 to R87) -/

theorem carryFlag_toNat (a b : Byte) : (carryFlag a b).toNat = if a.toNat + b.toNat > 255 then 1 else 0 :=
  Bool.cond_decide _ 1 0

theorem greaterFlag_toNat (a b : Byte) : (greaterFlag a b).toNat = if a.toNat > b.toNat then 1 else 0 :=
  Bool.cond_decide _ 1 0

theorem lowBitFlag_toNat (a : Byte) : (lowBitFlag a).toNat = a.toNat % 2 := by
  rw [lowBitFlag, BitVec.getLsbD, Nat.toNat_testBit, Nat.pow_zero, Nat.div_one]

/-- Bit 7 is the highest of a byte, so the quotient is the bit itself. -/
theorem highBitFlag_toNat (a : Byte) : (highBitFlag a).toNat = a.toNat / 128 := by
  have ha := a.isLt
  rw [highBitFlag, BitVec.getLsbD, Nat.toNat_testBit]
  omega

/-! ## The results as numbers (R84 to R87) -/

/-- The difference modulo 256, taken from 256 above so that it does not cut at zero. -/
theorem sub_toNat (a b : Byte) : (a - b).toNat = (256 + a.toNat - b.toNat) % 256 := by
  have hb := b.isLt
  rw [BitVec.toNat_sub]
  omega

theorem shiftRight_one_toNat (a : Byte) : (a >>> 1).toNat = a.toNat / 2 := by
  rw [BitVec.toNat_ushiftRight, Nat.shiftRight_one]

theorem shiftLeft_one_toNat (a : Byte) : (a <<< 1).toNat = 2 * a.toNat % 256 := by
  rw [BitVec.toNat_shiftLeft, Nat.shiftLeft_eq, Nat.pow_one, Nat.mul_comm]

/-- Settles O25: each of the five ends in writeFlagged, on the old values of V[x] and V[y]. -/
theorem flaggedArithmetic : Obligations.FlaggedArithmetic := by
  unfold Obligations.FlaggedArithmetic
  intro s x y
  refine ⟨?add, ?sub, ?shr, ?subn, ?shl⟩
  case add => exact writesFlagged_of_writeFlagged rfl (BitVec.toNat_add _ _) (carryFlag_toNat _ _)
  case sub => exact writesFlagged_of_writeFlagged rfl (sub_toNat _ _) (greaterFlag_toNat _ _)
  case shr => exact writesFlagged_of_writeFlagged rfl (shiftRight_one_toNat _) (lowBitFlag_toNat _)
  case subn => exact writesFlagged_of_writeFlagged rfl (sub_toNat _ _) (greaterFlag_toNat _ _)
  case shl => exact writesFlagged_of_writeFlagged rfl (shiftLeft_one_toNat _) (highBitFlag_toNat _)

end Sys2Proof.Machine
end

section
/-! SUPPORT. The timer writes (spec/44_keys_timers.md R102, R103): each has one next state, the old one with its
timer at V[x] and PC + 2. -/

namespace Sys2Proof.Machine

open Sys2Proof.Claims

variable (s : State) (x : RegIx)

theorem exec_ldDtVx : exec (.ldDtVx x) s = .next ({ s with dt := s.reg x }.advance 2) := rfl

theorem exec_ldStVx : exec (.ldStVx x) s = .next ({ s with st := s.reg x }.advance 2) := rfl

/-- Memory reads through the parameters and the stored bytes alone, so a timer write shows in no byte. -/
theorem sameMemory_setDt (b : Byte) : SameMemory s ({ s with dt := b }.advance 2) :=
  byte_congr rfl rfl

theorem sameMemory_setSt (b : Byte) : SameMemory s ({ s with st := b }.advance 2) :=
  byte_congr rfl rfl

/-- Settles O46, by the one next state of each timer write; the port shows ST itself. -/
theorem settingTimers : Obligations.SettingTimers := by
  unfold Obligations.SettingTimers
  intro s x
  refine ⟨?dt, ?st⟩
  case dt => exact ⟨_, exec_ldDtVx s x, rfl, rfl, rfl, sameMemory_setDt s _⟩
  case st => exact ⟨_, exec_ldStVx s x, rfl, rfl, rfl, rfl, sameMemory_setSt s _⟩

end Sys2Proof.Machine
end

section
/-! SUPPORT. The host's TICK (spec/60_exceptions.md R114): its one next state, and each timer of it as a number. -/

namespace Sys2Proof.Machine

theorem perform_tick (s : State) : perform .tick s = .next (tick s) := rfl

/-- A running timer is at least one, so its subtraction does not wrap; a timer at zero stays there, which is what
subtraction of natural numbers gives. -/
theorem tickTimer_toNat (t : Byte) : (tickTimer t).toNat = t.toNat - 1 := by
  unfold tickTimer
  split
  case isTrue running =>
    have one_le : (1 : Byte) ≤ t := BitVec.le_def.mpr running
    exact BitVec.toNat_sub_of_le one_le
  case isFalse stopped => omega

/-- Settles O49, by the one next state of TICK and what a tick leaves in a timer. -/
theorem tickDecrementsBothTimers : Obligations.TickDecrementsBothTimers := by
  unfold Obligations.TickDecrementsBothTimers
  intro s
  exact ⟨tick s, perform_tick s, tickTimer_toNat s.dt, tickTimer_toNat s.st, rfl⟩

end Sys2Proof.Machine
end

section
/-! SUPPORT. The decoder and the encoder are inverse to each other (spec/30_encoding.md R43 to R47): the word of
each format decodes to its row's instruction, and each category's table selects an instruction only by its word. -/

namespace Sys2Proof

open Sys2Proof.Claims

/-! ## From the instruction to its word and back -/

/-- The decoder reads every operand back from the format that holds it. -/
theorem decodeWord_encode (i : Instr) : decodeWord (encode i) = .ok i := by
  cases i with
  | cls | ret => decide
  | jpAddr | callAddr | ldIAddr | jpV0Addr => simp [encode, decodeWord, describe, recognise]
  | seVxByte | sneVxByte | ldVxByte | addVxByte | rndVxByte => simp [encode, decodeWord, describe, recognise]
  | seVxVy | sneVxVy | drwVxVyNibble => simp [encode, decodeWord, describe, recognise]
  | ldVxVy | orVxVy | andVxVy | xorVxVy | addVxVy | subVxVy | shrVxVy | subnVxVy | shlVxVy =>
    simp [encode, decodeWord, describe, recognise, recognise8]
  | skpVx | sknpVx => simp [encode, decodeWord, describe, recognise, recogniseE]
  | ldVxDt | ldVxK | ldDtVx | ldStVx | addIVx | ldIVx | ldBVx | ldMemVx | ldVxMem =>
    simp [encode, decodeWord, describe, recognise, recogniseF]

/-- Settles O1, by the decoder over words: the two bytes are put together to the word again. -/
theorem decodeOfEncodeIsTheInstruction : Obligations.DecodeOfEncodeIsTheInstruction := by
  unfold Obligations.DecodeOfEncodeIsTheInstruction
  intro i rest
  simp only [encodeBytes, List.cons_append, List.nil_append, decodeBytes, joinBytes_bytes, decodeWord_encode]

/-! ## From the word to its instruction and back -/

section
variable {w : Word} {i : Instr}

theorem eq_formatA {c : Nibble} (hc : fieldC w = c) : w = formatA c (fieldNNN w) := by
  rw [← hc, formatA_fields]

theorem eq_formatXB {c : Nibble} {nn : Byte} (hc : fieldC w = c) (hn : fieldNN w = nn) :
    w = formatXB c (fieldX w) nn := by
  rw [← hc, ← hn, formatXB_fields]

theorem eq_formatXYN {c n : Nibble} (hc : fieldC w = c) (hn : fieldN w = n) :
    w = formatXYN c (fieldX w) (fieldY w) n := by
  rw [← hc, ← hn, formatXYN_fields]

theorem eq_encode_of_recognise0 (hc : fieldC w = 0x0) (h : recognise0 (describe w) = .ok i) : w = encode i := by
  have hw := eq_formatA hc
  unfold recognise0 at h
  split at h
  next hn => cases h; rw [hw, show fieldNNN w = _ from hn]; rfl
  next hn => cases h; rw [hw, show fieldNNN w = _ from hn]; rfl
  next => cases h

theorem eq_encode_of_recognise8 (hc : fieldC w = 0x8) (h : recognise8 (describe w) = .ok i) : w = encode i := by
  unfold recognise8 at h
  split at h
  case h_10 => cases h
  all_goals
    next hn =>
      cases h
      exact eq_formatXYN hc hn

theorem eq_encode_of_recogniseE (hc : fieldC w = 0xE) (h : recogniseE (describe w) = .ok i) : w = encode i := by
  unfold recogniseE at h
  split at h
  case h_3 => cases h
  all_goals
    next hn =>
      cases h
      exact eq_formatXB hc hn

theorem eq_encode_of_recogniseF (hc : fieldC w = 0xF) (h : recogniseF (describe w) = .ok i) : w = encode i := by
  unfold recogniseF at h
  split at h
  case h_10 => cases h
  all_goals
    next hn =>
      cases h
      exact eq_formatXB hc hn

/-- The last category: the decoder's table names the fifteen others. -/
theorem eq_fifteen {c : Nibble} (h0 : c ≠ 0x0) (h1 : c ≠ 0x1) (h2 : c ≠ 0x2) (h3 : c ≠ 0x3) (h4 : c ≠ 0x4)
    (h5 : c ≠ 0x5) (h6 : c ≠ 0x6) (h7 : c ≠ 0x7) (h8 : c ≠ 0x8) (h9 : c ≠ 0x9) (hA : c ≠ 0xA) (hB : c ≠ 0xB)
    (hC : c ≠ 0xC) (hD : c ≠ 0xD) (hE : c ≠ 0xE) : c = 0xF := by
  bv_omega

/-- A word selects an instruction only if it is that instruction's word, by the category's format. -/
theorem eq_encode_of_decodeWord (h : decodeWord w = .ok i) : w = encode i := by
  unfold decodeWord recognise at h
  split at h
  next hc => exact eq_encode_of_recognise0 hc h
  next hc => cases h; exact eq_formatA hc
  next hc => cases h; exact eq_formatA hc
  next hc => cases h; exact eq_formatXB hc rfl
  next hc => cases h; exact eq_formatXB hc rfl
  next hc =>
    split at h
    next hn => cases h; exact eq_formatXYN hc hn
    next => cases h
  next hc => cases h; exact eq_formatXB hc rfl
  next hc => cases h; exact eq_formatXB hc rfl
  next hc => exact eq_encode_of_recognise8 hc h
  next hc =>
    split at h
    next hn => cases h; exact eq_formatXYN hc hn
    next => cases h
  next hc => cases h; exact eq_formatA hc
  next hc => cases h; exact eq_formatA hc
  next hc => cases h; exact eq_formatXB hc rfl
  next hc => cases h; exact eq_formatXYN hc rfl
  next hc => exact eq_encode_of_recogniseE hc h
  next h0 h1 h2 h3 h4 h5 h6 h7 h8 h9 hA hB hC hD hE =>
    exact eq_encode_of_recogniseF (eq_fifteen h0 h1 h2 h3 h4 h5 h6 h7 h8 h9 hA hB hC hD hE) h

/-- The decoder selects exactly by the encoder's word (R46). -/
theorem decodeWord_eq_ok_iff : decodeWord w = .ok i ↔ w = encode i :=
  ⟨eq_encode_of_decodeWord, fun h => h ▸ decodeWord_encode i⟩

theorem encode_injective {i j : Instr} (h : encode i = encode j) : i = j := by
  have hij : decodeWord (encode i) = .ok j := decodeWord_eq_ok_iff.mpr h
  simpa only [decodeWord_encode, Except.ok.injEq] using hij

end

/-- Settles O2, by the decoder's exact selection: what it does not select it rejects, and it selects one. -/
theorem wordSelectsExactlyItsTableRow : Obligations.WordSelectsExactlyItsTableRow := by
  unfold Obligations.WordSelectsExactlyItsTableRow
  refine ⟨fun w i => decodeWord_eq_ok_iff, ?rejected, fun i j => encode_injective⟩
  case rejected =>
    intro w hw
    cases hd : decodeWord w with
    | ok i => exact absurd (decodeWord_eq_ok_iff.mp hd) (hw i)
    | error e => exact ⟨e, rfl⟩

end Sys2Proof
end

section
/-! SUPPORT. The words that select no instruction (spec/30_encoding.md R47): the table of invalid words, read from
the fields of a word, and the decoder's answer in each category. -/

namespace Sys2Proof

open Sys2Proof.Claims

variable {d : Descriptor} {w : Word}

@[simp] theorem describe_n : (describe w).n = fieldN w := rfl
@[simp] theorem describe_nn : (describe w).nn = fieldNN w := rfl
@[simp] theorem describe_nnn : (describe w).nnn = fieldNNN w := rfl

/-! ## What each category's table leaves out -/

theorem recognise0_rejects_iff : (∃ e, recognise0 d = .error e) ↔ d.nnn ≠ 0x0E0 ∧ d.nnn ≠ 0x0EE := by
  unfold recognise0
  split
  next h => simp [h]
  next h => simp [h]
  next h1 h2 => simpa using ⟨h1, h2⟩

theorem recognise8_rejects_iff :
    (∃ e, recognise8 d = .error e) ↔ d.n ∈ [0x8, 0x9, 0xA, 0xB, 0xC, 0xD, 0xF] := by
  unfold recognise8
  split
  case h_10 h0 h1 h2 h3 h4 h5 h6 h7 hE =>
    have hn : d.n ∈ [0x8, 0x9, 0xA, 0xB, 0xC, 0xD, 0xF] := by
      revert h0 h1 h2 h3 h4 h5 h6 h7 hE
      generalize d.n = n
      revert n
      decide
    exact ⟨fun _ => hn, fun _ => ⟨_, rfl⟩⟩
  all_goals next h => simp [h]

theorem recogniseE_rejects_iff : (∃ e, recogniseE d = .error e) ↔ d.nn ∉ [0x9E, 0xA1] := by
  unfold recogniseE
  split
  case h_3 h1 h2 => simpa using ⟨h1, h2⟩
  all_goals next h => simp [h]

theorem recogniseF_rejects_iff :
    (∃ e, recogniseF d = .error e) ↔ d.nn ∉ [0x07, 0x0A, 0x15, 0x18, 0x1E, 0x29, 0x33, 0x55, 0x65] := by
  unfold recogniseF
  split
  case h_10 h1 h2 h3 h4 h5 h6 h7 h8 h9 => simpa using ⟨h1, h2, h3, h4, h5, h6, h7, h8, h9⟩
  all_goals next h => simp [h]

/-! ## R47's table over the fields of a word -/

/-- R47's table, one row per category, in the fields the decoder reads. -/
def InvalidFields (w : Word) : Prop :=
  (fieldC w = 0x0 ∧ fieldNNN w ≠ 0x0E0 ∧ fieldNNN w ≠ 0x0EE) ∨ (fieldC w = 0x5 ∧ fieldN w ≠ 0) ∨
  (fieldC w = 0x8 ∧ fieldN w ∈ [0x8, 0x9, 0xA, 0xB, 0xC, 0xD, 0xF]) ∨ (fieldC w = 0x9 ∧ fieldN w ≠ 0) ∨
  (fieldC w = 0xE ∧ fieldNN w ∉ [0x9E, 0xA1]) ∨
  (fieldC w = 0xF ∧ fieldNN w ∉ [0x07, 0x0A, 0x15, 0x18, 0x1E, 0x29, 0x33, 0x55, 0x65])

theorem mem_iff_toNat_mem {n : Nat} (b : BitVec n) (l : List (BitVec n)) : b ∈ l ↔ b.toNat ∈ l.map BitVec.toNat :=
  (List.mem_map_of_injective BitVec.toNat_injective).symm

theorem fieldC_eq_iff {c : Nibble} : fieldC w = c ↔ w.toNat / 4096 = c.toNat := by
  have := w.isLt
  rw [← BitVec.toNat_inj, fieldC_toNat, Nat.mod_eq_of_lt (by omega)]

theorem invalidWord_iff_fields : InvalidWord w.toNat ↔ InvalidFields w := by
  have hw := w.isLt
  have h0 : (fieldC w = 0x0 ∧ fieldNNN w ≠ 0x0E0 ∧ fieldNNN w ≠ 0x0EE) ↔
      (w.toNat / 4096 = 0x0 ∧ w.toNat ≠ 0x00E0 ∧ w.toNat ≠ 0x00EE) := by
    rw [fieldC_eq_iff, BitVec.toNat_ne, BitVec.toNat_ne, fieldNNN_toNat]
    show w.toNat / 4096 = 0 ∧ w.toNat % 4096 ≠ 0x0E0 ∧ w.toNat % 4096 ≠ 0x0EE ↔ _
    omega
  rw [InvalidFields, h0]
  simp only [mem_iff_toNat_mem, BitVec.toNat_ne, fieldN_toNat, fieldNN_toNat, fieldC_eq_iff]
  rfl

/-- The decoder rejects exactly the rows of R47's table, category by category. -/
theorem decodeWord_rejects_iff : (∃ e, decodeWord w = .error e) ↔ InvalidFields w := by
  unfold decodeWord recognise InvalidFields
  split
  case h_1 hc => simpa [show fieldC w = _ from hc] using recognise0_rejects_iff (d := describe w)
  case h_6 hc =>
    have hc : fieldC w = 0x5 := hc
    by_cases hn : fieldN w = 0#4 <;> simp [hc, hn]
  case h_9 hc => simpa [show fieldC w = _ from hc] using recognise8_rejects_iff (d := describe w)
  case h_10 hc =>
    have hc : fieldC w = 0x9 := hc
    by_cases hn : fieldN w = 0#4 <;> simp [hc, hn]
  case h_15 hc => simpa [show fieldC w = _ from hc] using recogniseE_rejects_iff (d := describe w)
  case h_16 h0 h1 h2 h3 h4 h5 h6 h7 h8 h9 hA hB hC hD hE =>
    have hc : fieldC w = 0xF := eq_fifteen h0 h1 h2 h3 h4 h5 h6 h7 h8 h9 hA hB hC hD hE
    simpa [hc] using recogniseF_rejects_iff (d := describe w)
  all_goals next hc => simp [show fieldC w = _ from hc]

/-- Settles O3, by R47's table over the fields. -/
theorem invalidWordsAreThoseOfTheTable : Obligations.InvalidWordsAreThoseOfTheTable := by
  unfold Obligations.InvalidWordsAreThoseOfTheTable
  intro w
  exact decodeWord_rejects_iff.trans invalidWord_iff_fields.symm

/-! ## Words written out -/

/-- Settles O4: each word is its instruction's word, and the two others stand in R47's table. -/
theorem tableWordsDecode : Obligations.TableWordsDecode := by
  unfold Obligations.TableWordsDecode
  decide

end Sys2Proof
end

section
/-! SUPPORT. The assembler (spec/30_encoding.md R53, R54): an operand's field is there exactly when the operand is in
range, and so an instruction is there exactly when its line is well formed. -/

namespace Sys2Proof

/-! ## One operand -/

/-- An operand's field is there exactly when its bounds check holds. -/
theorem isSome_ite_some {α : Type} (c : Bool) (a : α) : (if c then some a else none).isSome = c := by
  cases c <;> rfl

@[simp] theorem asmReg_isSome (r : Nat) : (asmReg r).isSome = regOk r := isSome_ite_some _ _

@[simp] theorem asmAddr_isSome (a : Nat) : (asmAddr a).isSome = addrOk a := isSome_ite_some _ _

@[simp] theorem asmByte_isSome (b : Nat) : (asmByte b).isSome = byteOk b := isSome_ite_some _ _

@[simp] theorem asmNibble_isSome (n : Nat) : (asmNibble n).isSome = nibbleOk n := isSome_ite_some _ _

@[simp] theorem asm1_isSome {α : Type} (f : α → Instr) (a : Option α) : (asm1 f a).isSome = a.isSome := by
  cases a <;> rfl

@[simp] theorem asm2_isSome {α β : Type} (f : α → β → Instr) (a : Option α) (b : Option β) :
    (asm2 f a b).isSome = (a.isSome && b.isSome) := by
  cases a <;> cases b <;> rfl

@[simp] theorem bind_asm2_isSome {α β γ : Type} (f : α → β → γ → Instr) (a : Option α) (b : Option β) (c : Option γ) :
    (a.bind fun x => asm2 (f x) b c).isSome = (a.isSome && b.isSome && c.isSome) := by
  cases a <;> simp

/-- The assembler and the check of a line have the same forms and the same bounds: in each case of the assembler the
check reads the same operands, and a line in none of them is in none of the check's. -/
theorem assemble_isSome (l : Line) : (assemble l).isSome = l.wf := by
  fun_cases assemble l
  all_goals simp [Line.wf, *]

/-- Settles O5, by the common case split of the assembler and the check. -/
theorem assemblerAcceptsExactlyWellFormedLines : Obligations.AssemblerAcceptsExactlyWellFormedLines := by
  unfold Obligations.AssemblerAcceptsExactlyWellFormedLines
  intro l
  rw [assemble_isSome]

/-! ## The line of an instruction -/

@[simp] theorem asmReg_toNat (x : RegIx) : asmReg x.toNat = some x := by
  simp [asmReg, regOk, x.isLt]

@[simp] theorem asmAddr_toNat (nnn : Addr12) : asmAddr nnn.toNat = some nnn := by
  simp [asmAddr, addrOk, nnn.isLt]

@[simp] theorem asmByte_toNat (nn : Byte) : asmByte nn.toNat = some nn := by
  simp [asmByte, byteOk, nn.isLt]

@[simp] theorem asmNibble_toNat (n : Nibble) : asmNibble n.toNat = some n := by
  simp [asmNibble, nibbleOk, n.isLt]

theorem asm1_of_eq_some {α : Type} {f : α → Instr} {a : Option α} {x : α} (h : a = some x) : asm1 f a = some (f x) := by
  rw [h]; rfl

theorem asm2_of_eq_some {α β : Type} {f : α → β → Instr} {a : Option α} {b : Option β} {x : α} {y : β} (ha : a = some x)
    (hb : b = some y) : asm2 f a b = some (f x y) := by
  rw [ha, hb]; rfl

/-- An operand written from a field is in the field's range and reads back as the field. -/
theorem assemble_line (i : Instr) : assemble i.line = some i := by
  cases i with
  | cls | ret => rfl
  | jpAddr nnn | callAddr nnn | ldIAddr nnn | jpV0Addr nnn => exact asm1_of_eq_some (asmAddr_toNat nnn)
  | skpVx x | sknpVx x | ldVxDt x | ldVxK x | ldDtVx x | ldStVx x | addIVx x | ldIVx x | ldBVx x | ldMemVx x
  | ldVxMem x => exact asm1_of_eq_some (asmReg_toNat x)
  | seVxByte x nn | sneVxByte x nn | ldVxByte x nn | addVxByte x nn | rndVxByte x nn =>
    exact asm2_of_eq_some (asmReg_toNat x) (asmByte_toNat nn)
  | seVxVy x y | sneVxVy x y | ldVxVy x y | orVxVy x y | andVxVy x y | xorVxVy x y | addVxVy x y | subVxVy x y
  | shrVxVy x y | subnVxVy x y | shlVxVy x y => exact asm2_of_eq_some (asmReg_toNat x) (asmReg_toNat y)
  | drwVxVyNibble x y n =>
    show (asmReg x.toNat).bind (fun x => asm2 (.drwVxVyNibble x) (asmReg y.toNat) (asmNibble n.toNat)) = _
    rw [asmReg_toNat x]
    exact asm2_of_eq_some (asmReg_toNat y) (asmNibble_toNat n)

/-- Settles O6: the line assembles to its instruction, and a line that assembles is well formed. -/
theorem assemblingALineGivesItsInstruction : Obligations.AssemblingALineGivesItsInstruction := by
  unfold Obligations.AssemblingALineGivesItsInstruction
  intro i
  refine ⟨?wf, assemble_line i⟩
  case wf => rw [← assemble_isSome, assemble_line, Option.isSome_some]

end Sys2Proof
end

section
/-! SUPPORT. What the access sequences leave, complete or cut by a fault, in the words of the statements
(spec/20_memory.md R32, R33, spec/40_display.md R57, R61, spec/60_exceptions.md R105). -/

namespace Sys2Proof.Machine

open Sys2Proof.Claims

variable {s : State}

theorem stored_storeBytes (hm : s.memWf) (bs : List Byte) :
    Stored s { s with mem := (storeBytes s.params.font s.mem s.i bs).1 } s.i bs := by
  intro k
  have hk := storeBytes_read hm s.i bs k
  exact ⟨fun h1 h2 h3 => hk.trans (if_pos ⟨h1, h2, h3⟩), fun h => hk.trans (if_neg h)⟩

theorem loaded_loadRegs (s : State) (x : RegIx) :
    Loaded s { s with v := (loadRegs s.params.font s.mem s.v s.i 0 (x.toNat + 1)).1 } x := by
  intro k
  have hk := loadRegs_getElem s.params.font s.mem s.v s.i 0 (x.toNat + 1) k.toNat k.isLt
  rw [Nat.sub_zero] at hk
  exact ⟨fun h1 h2 => hk.trans (if_pos ⟨by omega, by omega, h2⟩), fun h => hk.trans (if_neg (by omega))⟩

/-- The statements' sprite pixel is the draw engine's. -/
theorem spriteOne_iff {x y : RegIx} {n : Nibble} {px py : Nat} : SpriteOne s x y n px py ↔
    spriteOne s.params.font s.mem (s.reg x).toNat s.i (s.reg y).toNat n.toNat px py := by
  unfold SpriteOne spriteOne State.byte
  tauto

theorem drawn_sprite (s : State) (x y : RegIx) (n : Nibble) :
    Drawn s { s with fb := (s.sprite x y n).1.fb } x y n := by
  intro px py hx hy
  have hp := drawRows_pixel s.params.font s.mem (s.reg x).toNat { fb := s.fb, col := false } s.i (s.reg y).toNat
    n.toNat hx hy
  rw [spriteOne_iff]
  exact ⟨fun h => hp.trans (by simp [h]), fun h => hp.trans (by simp [h])⟩

theorem sprite_col (s : State) (x y : RegIx) (n : Nibble) : (s.sprite x y n).1.col = true ↔ Collides s x y n := by
  rw [State.sprite, drawRows_col]
  simp only [Bool.false_eq_true, false_or, Collides, spriteOne_iff]

theorem records_takeFault (s : State) (c : FaultCause) (w : Option Word) :
    Records (takeFault c w s).fault c.kind.code s.pc w c.addr :=
  ⟨rfl, rfl, rfl, rfl, rfl, rfl, rfl⟩

end Sys2Proof.Machine
end

section
/-! SUPPORT. How each instruction ends (spec/30_encoding.md R51, spec/60_exceptions.md R104 to R106): it completes
inside its frame, or it enters the fault of the table after its partial effect. Every statement over all
instructions follows from this one case split. -/

namespace Sys2Proof.Machine

open Sys2Proof.Claims

variable {i : Instr} {s t u : State}

/-- Nothing differs between s and t but what i is named to write, PC and the fault status. A clause that is not
given holds because the element is untouched. -/
structure Frame (i : Instr) (s t : State) : Prop where
  reg : ∀ k, writesReg i k = false → t.reg k = s.reg k := by exact fun _ _ => rfl
  index : writesI i = false → t.i = s.i := by exact fun _ => rfl
  stack : writesStack i = false → t.sp = s.sp ∧ t.stack = s.stack := by exact fun _ => ⟨rfl, rfl⟩
  dt : writesDt i = false → t.dt = s.dt := by exact fun _ => rfl
  st : writesSt i = false → t.st = s.st := by exact fun _ => rfl
  mem : writesMem i = false → t.mem = s.mem := by exact fun _ => rfl
  fb : writesFb i = false → t.fb = s.fb := by exact fun _ => rfl
  wait : writesWait i = false → t.wait = s.wait ∧ t.waitX = s.waitX ∧ t.keyPrev = s.keyPrev := by
    exact fun _ => ⟨rfl, rfl, rfl⟩
  random : consumesRandom i = false → t.rnd = s.rnd ∧ t.draws = s.draws := by exact fun _ => ⟨rfl, rfl⟩
  keypad : t.keypad = s.keypad := by rfl
  loadable : t.loadable = s.loadable := by rfl
  inbox : t.inbox = s.inbox := by rfl
  params : t.params = s.params := by rfl

/-- What i may have done before the access that fails: the rows drawn, the bytes stored or the registers loaded
inside the memory, and nothing else (R106). -/
structure PartialEffect (i : Instr) (s t : State) : Prop where
  rest : { t with fb := s.fb, mem := s.mem, v := s.v } = s := by rfl
  fb : (∀ x y n, i ≠ .drwVxVyNibble x y n) → t.fb = s.fb := by exact fun _ => rfl
  drawn : ∀ x y n, i = .drwVxVyNibble x y n → Drawn s t x y n := by nofun
  mem : (∀ x, i ≠ .ldBVx x) → (∀ x, i ≠ .ldMemVx x) → t.mem = s.mem := by exact fun _ _ => rfl
  digits : ∀ x, i = .ldBVx x → s.memWf → Stored s t s.i (bcdDigits (s.reg x)) := by nofun
  regs : ∀ x, i = .ldMemVx x → s.memWf → Stored s t s.i (s.regsUpTo x) := by nofun
  v : (∀ x, i ≠ .ldVxMem x) → t.v = s.v := by exact fun _ => rfl
  loaded : ∀ x, i = .ldVxMem x → Loaded s t x := by nofun

/-- The two ways an instruction ends (R51, R105). -/
inductive Ends (i : Instr) (s : State) : Prop
  | completes {t : State} (next : exec i s = .next t) (noFault : faultOf i s = none) (status : t.fault = s.fault)
      (frame : Frame i s t)
  | faults {u : State} {c : FaultCause} (next : exec i s = .next (takeFault c (some (encode i)) u))
      (fault : faultOf i s = some (c.kind.code, c.addr)) (effect : PartialEffect i s u)

/-! ## Frames of the shared ends of an instruction -/

theorem Frame.skipIf (c : Bool) : Frame i s (s.skipIf c) := by
  cases c <;> exact {}

theorem Frame.setReg {x : RegIx} {b : Byte} (hw : ∀ k, writesReg i k = (k == x)) :
    Frame i s ((s.setReg x b).advance 2) where
  reg k hk := reg_setReg_ne s b (by simpa [hw] using hk)

theorem Frame.writeFlagged {x : RegIx} {b : Byte} {c : Bool} (hw : ∀ k, writesReg i k = (k == x || k == 0xF)) :
    Frame i s (s.writeFlagged x b c) where
  reg k hk := by
    obtain ⟨hx, hF⟩ : k ≠ x ∧ k ≠ 0xF := by simpa [hw] using hk
    exact reg_writeFlagged_ne s b c hF hx

/-! ## The instructions that can fault, and LD Vx, K -/

theorem ends_callAddr (nnn : Addr12) : Ends (.callAddr nnn) s := by
  rcases Nat.lt_or_ge s.sp.val 16 with h | h
  · exact .completes (exec_callAddr_of_lt nnn h) (if_neg (by omega)) rfl { stack := nofun }
  · have hfull : s.sp.val = 16 := by omega
    exact .faults (exec_callAddr_of_full nnn hfull) (if_pos hfull) {}

theorem ends_ret : Ends .ret s := by
  rcases Nat.eq_zero_or_pos s.sp.val with h | h
  · exact .faults (exec_ret_of_zero h) (if_pos h) {}
  · exact .completes (exec_ret_of_pos h) (if_neg (by omega)) rfl { stack := nofun }

theorem ends_skpVx (x : RegIx) : Ends (.skpVx x) s := by
  rcases Nat.lt_or_ge 15 (s.reg x).toNat with h | h
  · exact .faults (exec_skpVx_of_gt h) (if_pos h) {}
  · exact .completes (exec_skpVx_of_le h) (if_neg (by omega)) (skipIf_fault s _) (.skipIf _)

theorem ends_sknpVx (x : RegIx) : Ends (.sknpVx x) s := by
  rcases Nat.lt_or_ge 15 (s.reg x).toNat with h | h
  · exact .faults (exec_sknpVx_of_gt h) (if_pos h) {}
  · exact .completes (exec_sknpVx_of_le h) (if_neg (by omega)) (skipIf_fault s _) (.skipIf _)

theorem ends_ldIVx (x : RegIx) : Ends (.ldIVx x) s := by
  rcases Nat.lt_or_ge 15 (s.reg x).toNat with h | h
  · exact .faults (exec_ldIVx_of_gt h) (if_pos h) {}
  · exact .completes (exec_ldIVx_of_le h) (if_neg (by omega)) rfl { index := nofun }

theorem ends_drwVxVyNibble (x y : RegIx) (n : Nibble) : Ends (.drwVxVyNibble x y n) s := by
  by_cases h : SpriteReadable s n
  · refine .completes (exec_drwVxVyNibble_of_readable h) (if_pos (spriteReadable_iff.mp h)) rfl
      { fb := nofun, reg := fun k hk => ?flag }
    case flag => exact reg_setFlag_ne _ _ (by simpa [writesReg] using hk)
  · refine .faults (exec_drwVxVyNibble_of_not_readable h) (if_neg (spriteReadable_iff.not.mp h))
      { fb := fun hi => absurd rfl (hi x y n), drawn := ?drawn }
    case drawn =>
      rintro _ _ _ ⟨⟩
      exact drawn_sprite s x y n

theorem ends_ldBVx (x : RegIx) : Ends (.ldBVx x) s := by
  rcases Nat.lt_or_ge 4096 (s.i + 3) with h | h
  · refine .faults (exec_ldBVx_of_gt h) (if_neg (by omega)) { mem := fun hi => absurd rfl (hi x), digits := ?digits }
    case digits =>
      rintro _ ⟨⟩ hm
      exact stored_storeBytes hm _
  · exact .completes (exec_ldBVx_of_le h) (if_pos (.inr h)) rfl { mem := nofun }

theorem ends_ldMemVx (x : RegIx) : Ends (.ldMemVx x) s := by
  rcases Nat.lt_or_ge 4096 (s.i + (x.toNat + 1)) with h | h
  · refine .faults (exec_ldMemVx_of_gt h) (if_neg (by omega)) { mem := fun _ hi => absurd rfl (hi x), regs := ?regs }
    case regs =>
      rintro _ ⟨⟩ hm
      exact stored_storeBytes hm _
  · exact .completes (exec_ldMemVx_of_le h) (if_pos (.inr h)) rfl { mem := nofun }

theorem ends_ldVxMem (x : RegIx) : Ends (.ldVxMem x) s := by
  rcases Nat.lt_or_ge 4096 (s.i + (x.toNat + 1)) with h | h
  · refine .faults (exec_ldVxMem_of_gt h) (if_neg (by omega)) { v := fun hi => absurd rfl (hi x), loaded := ?loaded }
    case loaded =>
      rintro _ ⟨⟩
      exact loaded_loadRegs s x
  · refine .completes (exec_ldVxMem_of_le h) (if_pos (.inr h)) rfl { reg := fun k hk => ?reg }
    case reg =>
      have hk : ¬ k.toNat ≤ x.toNat := of_decide_eq_false hk
      exact (loaded_loadRegs s x k).2 fun h => hk h.1

theorem ends_ldVxK (x : RegIx) : Ends (.ldVxK x) s := by
  cases h : s.wait with
  | false => exact .completes (exec_ldVxK_arms x h) rfl rfl { wait := nofun }
  | true =>
    by_cases hk : s.newKeys = 0
    · exact .completes (exec_ldVxK_samples x h hk) rfl rfl { wait := nofun }
    · refine .completes (exec_ldVxK_completes x h hk) rfl rfl { wait := nofun, reg := fun k hk => ?reg }
      case reg => exact reg_setReg_ne _ _ (by simpa [writesReg] using hk)

/-- Every instruction in every state ends in one of the two ways. -/
theorem ends (i : Instr) (s : State) : Ends i s := by
  cases i with
  | callAddr nnn => exact ends_callAddr nnn
  | ret => exact ends_ret
  | skpVx x => exact ends_skpVx x
  | sknpVx x => exact ends_sknpVx x
  | ldIVx x => exact ends_ldIVx x
  | drwVxVyNibble x y n => exact ends_drwVxVyNibble x y n
  | ldBVx x => exact ends_ldBVx x
  | ldMemVx x => exact ends_ldMemVx x
  | ldVxMem x => exact ends_ldVxMem x
  | ldVxK x => exact ends_ldVxK x
  | jpAddr | jpV0Addr => exact .completes rfl rfl rfl {}
  | seVxByte | sneVxByte | seVxVy | sneVxVy => exact .completes rfl rfl (skipIf_fault s _) (.skipIf _)
  | ldVxByte | addVxByte | ldVxVy | orVxVy | andVxVy | xorVxVy | ldVxDt =>
    exact .completes rfl rfl rfl (.setReg fun _ => rfl)
  | addVxVy | subVxVy | shrVxVy | subnVxVy | shlVxVy => exact .completes rfl rfl rfl (.writeFlagged fun _ => rfl)
  | rndVxByte x nn =>
    refine .completes rfl rfl rfl { random := nofun, reg := fun k hk => ?reg }
    case reg => exact reg_setReg_ne _ _ (by simpa [writesReg] using hk)
  | cls => exact .completes rfl rfl rfl { fb := nofun }
  | ldIAddr | addIVx => exact .completes rfl rfl rfl { index := nofun }
  | ldDtVx => exact .completes rfl rfl rfl { dt := nofun }
  | ldStVx => exact .completes rfl rfl rfl { st := nofun }

end Sys2Proof.Machine
end

section
/-! SUPPORT. What follows for every instruction from the two ways one ends: totality, faults, partial effects and
frames (spec/30_encoding.md R51, spec/60_exceptions.md R104 to R106). -/

namespace Sys2Proof.Machine

open Sys2Proof.Claims

variable {i : Instr} {s t u : State}

/-! ## Every step answers a next state -/

theorem exec_next (i : Instr) (s : State) : ∃ t, exec i s = .next t := by
  cases ends i s with
  | completes hx => exact ⟨_, hx⟩
  | faults hx => exact ⟨_, hx⟩

theorem cycle_next (s : State) : ∃ t, cycle s = .next t := by
  rcases cycle_cases s with ⟨_, h⟩ | ⟨_, _, _, h⟩ | ⟨_, _, _, _, _, h⟩ | ⟨_, _, i, _, _, h⟩
  · exact ⟨_, h⟩
  · exact ⟨_, h⟩
  · exact ⟨_, h⟩
  · exact h ▸ exec_next i s.closeLoad

theorem perform_next (c : Command) (s : State) : ∃ t, perform c s = .next t := by
  cases c with
  | cycle => exact cycle_next s
  | reset | load | tick | keypad | random | resume => exact ⟨_, rfl⟩

/-- A step is a command of the host, a CYCLE when none is waiting. -/
theorem step_eq_perform (s : State) :
    (s.inbox = [] ∧ step s = perform .cycle s) ∨
    ∃ c rest, s.inbox = c :: rest ∧ step s = perform c { s with inbox := rest } := by
  cases h : s.inbox with
  | nil => exact .inl ⟨rfl, step_of_no_command h⟩
  | cons c rest => exact .inr ⟨c, rest, rfl, step_of_command h⟩

/-- Settles O14: an instruction completes or enters its fault, and a step is one command of the host. -/
theorem everyStepAnswersANextState : Obligations.EveryStepAnswersANextState := by
  unfold Obligations.EveryStepAnswersANextState
  refine ⟨exec_next, fun s => ?step⟩
  case step =>
    rcases step_eq_perform s with ⟨_, h⟩ | ⟨c, rest, _, h⟩
    · exact h ▸ perform_next .cycle s
    · exact h ▸ perform_next c _

/-! ## Faults -/

/-- A state an instruction leads to is a completed one or the entry of its fault (R51, R105). -/
theorem exec_cases (h : exec i s = .next t) :
    (faultOf i s = none ∧ t.fault = s.fault ∧ Frame i s t) ∨
    ∃ c u, faultOf i s = some (c.kind.code, c.addr) ∧ PartialEffect i s u ∧ t = takeFault c (some (encode i)) u := by
  cases ends i s with
  | completes hx hf hs hframe =>
    obtain rfl := Host.Outcome.next.inj (hx.symm.trans h)
    exact .inl ⟨hf, hs, hframe⟩
  | faults hx hf he => exact .inr ⟨_, _, hf, he, (Host.Outcome.next.inj (hx.symm.trans h)).symm⟩

theorem PartialEffect.pc (h : PartialEffect i s u) : u.pc = s.pc := (congrArg State.pc h.rest :)
theorem PartialEffect.index (h : PartialEffect i s u) : u.i = s.i := (congrArg State.i h.rest :)
theorem PartialEffect.fault (h : PartialEffect i s u) : u.fault = s.fault := (congrArg State.fault h.rest :)

/-- Settles O54, by the two ways an instruction ends; fault entry itself writes only the fault status. -/
theorem instructionsFaultExactlyAsListed : Obligations.InstructionsFaultExactlyAsListed := by
  unfold Obligations.InstructionsFaultExactlyAsListed
  intro i s t h
  rcases exec_cases h with ⟨hf, hs, _⟩ | ⟨c, u, hf, he, rfl⟩
  · exact ⟨fun _ => hs, fun code addr hsome => by simp [hf] at hsome⟩
  · refine ⟨fun hnone => by simp [hf] at hnone, fun code addr hsome => ?_⟩
    obtain ⟨rfl, rfl⟩ : c.kind.code = code ∧ c.addr = addr := by simpa [hf] using hsome
    refine ⟨he.pc ▸ records_takeFault u c _, ?rest, he.fb, he.drawn, he.mem, he.digits, he.regs, he.v, he.loaded⟩
    case rest =>
      calc { takeFault c (some (encode i)) u with fault := s.fault, fb := s.fb, mem := s.mem, v := s.v }
        _ = { u with fault := u.fault, fb := s.fb, mem := s.mem, v := s.v } := by rw [he.fault]; rfl
        _ = s := he.rest

/-! ## Frames -/

/-- A partial effect stays inside the frame: what it may write, the instruction is named to write. -/
theorem PartialEffect.frame (h : PartialEffect i s u) : Frame i s u where
  reg k hk := by
    by_cases hi : ∃ x, i = .ldVxMem x
    · obtain ⟨x, rfl⟩ := hi
      have hgt : ¬ k.toNat ≤ x.toNat := of_decide_eq_false hk
      exact (h.loaded x rfl k).2 fun hc => hgt hc.1
    · have hv : u.v = s.v := h.v fun x hx => hi ⟨x, hx⟩
      simp only [State.reg, hv]
  index _ := h.index
  stack _ := ⟨(congrArg State.sp h.rest :), (congrArg State.stack h.rest :)⟩
  dt _ := (congrArg State.dt h.rest :)
  st _ := (congrArg State.st h.rest :)
  mem hw := h.mem (fun x hx => by simp [hx, writesMem] at hw) (fun x hx => by simp [hx, writesMem] at hw)
  fb hw := h.fb fun x y n hx => by simp [hx, writesFb] at hw
  wait _ := ⟨(congrArg State.wait h.rest :), (congrArg State.waitX h.rest :), (congrArg State.keyPrev h.rest :)⟩
  random _ := ⟨(congrArg State.rnd h.rest :), (congrArg State.draws h.rest :)⟩
  keypad := (congrArg State.keypad h.rest :)
  loadable := (congrArg State.loadable h.rest :)
  inbox := (congrArg State.inbox h.rest :)
  params := (congrArg State.params h.rest :)

/-- Whatever way it ends, an instruction stays inside its frame: fault entry writes the fault status alone. -/
theorem exec_frame (h : exec i s = .next t) : Frame i s t := by
  rcases exec_cases h with ⟨_, _, hframe⟩ | ⟨c, u, _, he, rfl⟩
  · exact hframe
  · exact { he.frame with }

theorem Frame.sameMemory (h : Frame i s t) (hw : writesMem i = false) : SameMemory s t :=
  byte_congr h.params (h.mem hw)

/-- Settles O56, by the frame of every instruction. -/
theorem onlyTheNamedInstructionsWrite : Obligations.OnlyTheNamedInstructionsWrite := by
  unfold Obligations.OnlyTheNamedInstructionsWrite
  intro i s t h
  have f := exec_frame h
  exact ⟨f.reg, f.index, f.stack, f.dt, f.st, fun hw => ⟨f.mem hw, f.sameMemory hw⟩, f.fb, f.wait, f.random,
    f.keypad, f.loadable, f.inbox, f.params⟩

/-! ## The parameters -/

theorem cycle_params (h : cycle s = .next t) : t.params = s.params := by
  rcases cycle_cases s with ⟨_, hc⟩ | ⟨_, _, _, hc⟩ | ⟨_, _, _, _, _, hc⟩ | ⟨_, _, i, _, _, hc⟩
  · cases hc.symm.trans h; rfl
  · cases hc.symm.trans h; rfl
  · cases hc.symm.trans h; rfl
  · exact (exec_frame (hc.symm.trans h)).params

theorem load_params (bytes : List Byte) (s : State) : (load bytes s).params = s.params := by
  by_cases h : loadResponse bytes s = .ok
  · rw [load_of_ok h]
  · rw [load_of_not_ok h]

theorem resume_params (pc : Word) (s : State) : (resume pc s).params = s.params := by
  cases h : s.fault.halted with
  | true => rw [resume_of_halted pc h]
  | false => rw [resume_of_running pc h]

theorem perform_params {c : Command} (h : perform c s = .next t) : t.params = s.params := by
  cases c with
  | cycle => exact cycle_params h
  | load bytes => cases h; exact load_params bytes s
  | resume pc => cases h; exact resume_params pc s
  | reset | tick | keypad | random => cases h; rfl

/-- Settles O22: no command writes the parameters. -/
theorem stepKeepsTheParameters : Obligations.StepKeepsTheParameters := by
  unfold Obligations.StepKeepsTheParameters
  intro s t h
  rcases step_eq_perform s with ⟨_, hs⟩ | ⟨c, rest, _, hs⟩
  · exact perform_params (hs.symm.trans h)
  · exact perform_params (s := { s with inbox := rest }) (hs.symm.trans h)

end Sys2Proof.Machine
end

section
/-! SUPPORT. The invariant of a run (spec/10_state.md R23): what it does not read, how fault entry keeps it, and what
each instruction keeps of it. -/

namespace Sys2Proof.Machine

open Sys2Proof.Claims

variable {i : Instr} {s t u : State} {c : FaultCause} {p : Params}

/-! ## What the invariant does not read -/

/-- The registers, the stack's height, the timers, the screen and the host's inputs are no part of the invariant. -/
theorem State.Inv.congr_unread (h : s.Inv) (v : Vector Byte 16) (sp : Fin 17) (dt st : Byte) (fb : Framebuffer)
    (keypad : Keys) (rnd : List Byte) (draws : Nat) (inbox : List Command) :
    ({ s with v, sp, dt, st, fb, keypad, rnd, draws, inbox } : State).Inv where
  params_ok := h.params_ok
  i_lt := h.i_lt
  addr_lt := h.addr_lt
  mem_wf := h.mem_wf
  stack_le := h.stack_le
  fault_coherent := { h.fault_coherent with }
  wait_coherent := { h.wait_coherent with }
  fresh_of_loadable := h.fresh_of_loadable

theorem State.Inv.closeLoad (h : s.Inv) : s.closeLoad.Inv where
  params_ok := h.params_ok
  i_lt := h.i_lt
  addr_lt := h.addr_lt
  mem_wf := h.mem_wf
  stack_le := h.stack_le
  fault_coherent := { h.fault_coherent with }
  wait_coherent := { h.wait_coherent with }
  fresh_of_loadable := nofun

/-! ## The fault status -/

theorem faultCoherent_of_clear (h : s.fault = FaultStatus.clear) : s.FaultCoherent where
  clear_of_running _ := h
  kind_of_halted hh := by rw [h] at hh; cases hh
  pc_of_halted hh := by rw [h] at hh; cases hh
  addr_iff := by rw [h]; decide
  addr_bound ha := by rw [h] at ha; cases ha
  addr_zero _ := by rw [h]; rfl
  word_zero _ := by rw [h]; rfl

/-- The address a fault reports, if any, is outside the memory and fits FAULT_ADDR (R20, R105). -/
def FaultCause.Bounded (p : Params) (c : FaultCause) : Prop :=
  ∀ a, c.addr = some a → 4096 ≤ a ∧ a < 2 ^ p.faultAddrWidth

theorem faultCoherent_takeFault (hc : c.Bounded p) (w : Option Word) (s : State) :
    (takeFault c w s).FaultCoherent where
  clear_of_running := nofun
  kind_of_halted _ := by cases c <;> exact nofun
  pc_of_halted _ := rfl
  addr_iff := by cases c <;> simp [FaultCause.addr, FaultCause.kind]
  addr_bound ha := by
    cases c with
    | outOfBounds a => exact (hc a rfl).1
    | invalidOpcode | stackOverflow | stackUnderflow => cases ha
  addr_zero ha := by
    cases c with
    | outOfBounds a => cases ha
    | invalidOpcode | stackOverflow | stackUnderflow => rfl
  word_zero hw := by
    cases w with
    | none => rfl
    | some w => cases hw

theorem addr_takeFault_lt (hc : c.Bounded s.params) (w : Option Word) :
    (takeFault c w s).fault.addr < 2 ^ s.params.faultAddrWidth := by
  cases c with
  | outOfBounds a => exact (hc a rfl).2
  | invalidOpcode | stackOverflow | stackUnderflow => exact Nat.two_pow_pos _

/-- Fault entry on a core that does not wait and has closed LOAD. -/
theorem State.Inv.takeFault (h : s.Inv) (hw : s.wait = false) (hl : s.loadable = false) (hc : c.Bounded s.params)
    (w : Option Word) : (takeFault c w s).Inv where
  params_ok := h.params_ok
  i_lt := h.i_lt
  addr_lt := addr_takeFault_lt hc w
  mem_wf := h.mem_wf
  stack_le := h.stack_le
  fault_coherent := faultCoherent_takeFault hc w s
  wait_coherent :=
    { word_of_wait := fun ht => by simp [hw] at ht
      running_of_wait := fun ht => by simp [hw] at ht
      idle_zero := h.wait_coherent.idle_zero }
  fresh_of_loadable := fun ht => by simp [hl] at ht

theorem bounded_invalidOpcode (p : Params) : FaultCause.invalidOpcode.Bounded p := nofun

/-- The address of a failing fetch is a PC or the end of the memory. -/
theorem bounded_fetch (p : Params) (h : fetch s = .error c) : c.Bounded p := by
  have hge : 0xFFF ≤ s.pc.toNat := by
    by_contra hlt
    rw [fetch_of_le (by omega)] at h
    cases h
  rw [fetch_of_ge hge] at h
  cases h
  have hpc := s.pc.isLt
  have hw := le_two_pow_faultAddrWidth p
  rintro a ⟨⟩
  constructor <;> omega

/-- The address of a failing data access is I or the end of the memory (R104). -/
theorem faultOf_addr {code : BitVec 3} {a : Nat} (h : faultOf i s = some (code, some a)) : a = max s.i 4096 := by
  unfold faultOf at h
  cases i with
  | callAddr | ret | skpVx | sknpVx | ldIVx =>
    simp only [Option.ite_none_right_eq_some, Option.some.injEq, Prod.mk.injEq, reduceCtorEq, and_false] at h
  | drwVxVyNibble | ldBVx | ldMemVx | ldVxMem =>
    simp only [Option.ite_none_left_eq_some, Option.some.injEq, Prod.mk.injEq] at h
    exact h.2.2.symm
  | _ => cases h

theorem bounded_faultOf (hi : s.i < 2 ^ s.params.iWidth) (h : faultOf i s = some (c.kind.code, c.addr)) :
    c.Bounded s.params := by
  intro a ha
  rw [ha] at h
  have h1 := le_two_pow_faultAddrWidth s.params
  have h2 := two_pow_iWidth_le s.params
  rw [faultOf_addr h]
  constructor <;> omega

/-! ## What an instruction keeps -/

theorem exec_i_lt (hp : s.params.Ok) (hi : s.i < 2 ^ s.params.iWidth) (h : exec i s = .next t) :
    t.i < 2 ^ s.params.iWidth := by
  have hwide := le_two_pow_iWidth hp
  cases i with
  | ldIAddr nnn =>
    cases h
    have := nnn.isLt
    show nnn.toNat < _
    omega
  | addIVx x =>
    cases h
    exact Nat.mod_lt _ (Nat.two_pow_pos _)
  | ldIVx x =>
    rcases Nat.lt_or_ge 15 (s.reg x).toNat with hx | hx
    · cases (exec_ldIVx_of_gt hx).symm.trans h
      exact hi
    · cases (exec_ldIVx_of_le hx).symm.trans h
      show 0x050 + 5 * (s.reg x).toNat < _
      omega
  | _ => exact (exec_frame h).index rfl ▸ hi

theorem exec_memWf (hm : s.memWf) (h : exec i s = .next t) : t.memWf := by
  cases i with
  | ldBVx x =>
    rcases Nat.lt_or_ge 4096 (s.i + 3) with hx | hx
    · cases (exec_ldBVx_of_gt hx).symm.trans h
      exact storeBytes_wf hm _ _
    · cases (exec_ldBVx_of_le hx).symm.trans h
      exact storeBytes_wf hm _ _
  | ldMemVx x =>
    rcases Nat.lt_or_ge 4096 (s.i + (x.toNat + 1)) with hx | hx
    · cases (exec_ldMemVx_of_gt hx).symm.trans h
      exact storeBytes_wf hm _ _
    · cases (exec_ldMemVx_of_le hx).symm.trans h
      exact storeBytes_wf hm _ _
  | _ =>
    have hf := exec_frame h
    simp only [State.memWf, hf.mem rfl, hf.params]
    exact hm

/-- CALL pushes PC + 2, which is at most 0x1000 for a PC that was fetched at. -/
theorem exec_stack_le (hpc : s.pc.toNat ≤ 0xFFE) (hs : ∀ k : Fin 16, s.stack[k].toNat ≤ 0x1000)
    (h : exec i s = .next t) (k : Fin 16) : t.stack[k].toNat ≤ 0x1000 := by
  cases i with
  | callAddr nnn =>
    rcases Nat.lt_or_ge s.sp.val 16 with hsp | hsp
    · cases (exec_callAddr_of_lt nnn hsp).symm.trans h
      have hpc2 : (s.pc + 2).toNat ≤ 0x1000 := by bv_omega
      have hk := hs k
      simp only [Fin.getElem_fin, Vector.getElem_set] at hk ⊢
      split
      · exact hpc2
      · exact hk
    · cases (exec_callAddr_of_full nnn (by omega)).symm.trans h
      exact hs k
  | ret =>
    rcases Nat.eq_zero_or_pos s.sp.val with hsp | hsp
    · cases (exec_ret_of_zero hsp).symm.trans h
      exact hs k
    · cases (exec_ret_of_pos hsp).symm.trans h
      exact hs k
  | _ => exact ((exec_frame h).stack rfl).2 ▸ hs k

/-- A core that waits is over its LD Vx, K, so any other instruction finds no wait (R23). -/
theorem State.Inv.wait_false (h : s.Inv) (hf : fetch s = .ok (encode i)) (hi : writesWait i = false) :
    s.wait = false := by
  by_contra hw
  have hk := h.wait_coherent.word_of_wait (by simpa using hw)
  have hik : encode i = encode (.ldVxK s.waitX) := Except.ok.inj (hf.symm.trans hk)
  rw [encode_injective hik] at hi
  cases hi

/-- LD Vx, K under the invariant: it arms the wait at its own word, keeps it, or completes it. -/
theorem waitCoherent_ldVxK {x : RegIx} (hs : s.WaitCoherent) (hrun : s.fault.halted = false)
    (hf : fetch s = .ok (encode (.ldVxK x))) (h : exec (.ldVxK x) s = .next t) : t.WaitCoherent := by
  cases hw : s.wait with
  | false =>
    cases (exec_ldVxK_arms x hw).symm.trans h
    exact { word_of_wait := fun _ => hf, running_of_wait := fun _ => hrun, idle_zero := nofun }
  | true =>
    by_cases hk : s.newKeys = 0
    · cases (exec_ldVxK_samples x hw hk).symm.trans h
      exact
        { word_of_wait := hs.word_of_wait, running_of_wait := hs.running_of_wait,
          idle_zero := fun hn => by simp [hw] at hn }
    · cases (exec_ldVxK_completes x hw hk).symm.trans h
      exact { word_of_wait := nofun, running_of_wait := nofun, idle_zero := fun _ => ⟨rfl, rfl⟩ }

theorem exec_waitCoherent (hs : s.Inv) (hrun : s.fault.halted = false) (hf : fetch s = .ok (encode i))
    (h : exec i s = .next t) : t.WaitCoherent := by
  cases hi : writesWait i with
  | true =>
    cases i with
    | ldVxK x => exact waitCoherent_ldVxK hs.wait_coherent hrun hf h
    | _ => cases hi
  | false =>
    have hw := hs.wait_false hf hi
    obtain ⟨ht, htx, htk⟩ := (exec_frame h).wait hi
    have hidle := hs.wait_coherent.idle_zero hw
    rw [hw] at ht
    exact
      { word_of_wait := fun hn => by simp [ht] at hn
        running_of_wait := fun hn => by simp [ht] at hn
        idle_zero := fun _ => ⟨htx.trans hidle.1, htk.trans hidle.2⟩ }

/-- An instruction fetched at PC keeps the invariant on a core that is not halted and has closed LOAD. -/
theorem State.Inv.exec (hs : s.Inv) (hrun : s.fault.halted = false) (hl : s.loadable = false)
    (hf : fetch s = .ok (encode i)) (h : exec i s = .next t) : t.Inv where
  params_ok := (exec_frame h).params ▸ hs.params_ok
  i_lt := (exec_frame h).params ▸ exec_i_lt hs.params_ok hs.i_lt h
  addr_lt := by
    rw [(exec_frame h).params]
    rcases exec_cases h with ⟨_, hfault, _⟩ | ⟨c, u, hc, he, rfl⟩
    · exact hfault ▸ hs.addr_lt
    · have hb := bounded_faultOf hs.i_lt hc
      rw [← he.frame.params] at hb ⊢
      exact addr_takeFault_lt hb _
  mem_wf := exec_memWf hs.mem_wf h
  stack_le := exec_stack_le (le_of_fetch hf) hs.stack_le h
  fault_coherent := by
    rcases exec_cases h with ⟨_, hfault, _⟩ | ⟨c, u, hc, _, rfl⟩
    · exact faultCoherent_of_clear (hfault.trans (hs.fault_coherent.clear_of_running hrun))
    · exact faultCoherent_takeFault (bounded_faultOf hs.i_lt hc) _ u
  wait_coherent := exec_waitCoherent hs hrun hf h
  fresh_of_loadable hn := by
    rw [(exec_frame h).loadable, hl] at hn
    cases hn

end Sys2Proof.Machine
end

section
/-! SUPPORT. Every command of the host keeps the invariant (spec/10_state.md R23, R24), and so every step and every
run. -/

namespace Sys2Proof.Machine

open Sys2Proof.Claims

variable {s t : State} {c : Command} {p : Params}

/-! ## CYCLE -/

/-- A core that waits is over a word that decodes. -/
theorem State.Inv.wait_false_of_not_decoded (h : s.Inv) (hn : ∀ i : Instr, fetch s ≠ .ok (encode i)) :
    s.wait = false := by
  by_contra hw
  exact hn _ (h.wait_coherent.word_of_wait (by simpa using hw))

theorem State.Inv.cycle (hs : s.Inv) (h : cycle s = .next t) : t.Inv := by
  rcases cycle_cases s with ⟨_, hc⟩ | ⟨_, c, hf, hc⟩ | ⟨_, w, e, hf, hd, hc⟩ | ⟨hrun, w, i, hf, hd, hc⟩
  · cases hc.symm.trans h
    exact hs
  · cases hc.symm.trans h
    have hw : s.wait = false := hs.wait_false_of_not_decoded fun i hi => by simp [hf] at hi
    exact hs.closeLoad.takeFault hw rfl (bounded_fetch _ hf) none
  · cases hc.symm.trans h
    have hw : s.wait = false := hs.wait_false_of_not_decoded fun i hi => by
      obtain rfl := Except.ok.inj (hf.symm.trans hi)
      simp [decodeWord_encode] at hd
    exact hs.closeLoad.takeFault hw rfl (bounded_invalidOpcode _) (some w)
  · obtain rfl := decodeWord_eq_ok_iff.mp hd
    exact hs.closeLoad.exec hrun rfl hf (hc.symm.trans h)

/-! ## The other commands -/

theorem inv_resetWith (hp : p.Ok) : (State.resetWith p).Inv where
  params_ok := hp
  i_lt := Nat.two_pow_pos _
  addr_lt := Nat.two_pow_pos _
  mem_wf := Memory.wf_nil
  stack_le k := by simp [State.resetWith]
  fault_coherent := faultCoherent_of_clear rfl
  wait_coherent := { word_of_wait := nofun, running_of_wait := nofun, idle_zero := fun _ => ⟨rfl, rfl⟩ }
  fresh_of_loadable _ := ⟨rfl, rfl⟩

/-- RESET leaves the inputs alone, which the invariant does not read. -/
theorem inv_resetCommand (hp : s.params.Ok) : (resetCommand s).Inv :=
  (inv_resetWith hp).congr_unread _ _ _ _ _ s.keypad s.rnd s.draws s.inbox

/-- A LOAD that is accepted comes before the first cycle, on a core that neither waits nor is halted. -/
theorem State.Inv.load (hs : s.Inv) (bytes : List Byte) : (load bytes s).Inv := by
  by_cases hr : loadResponse bytes s = .ok
  · obtain ⟨hl, hlen⟩ := loadResponse_ok.mp hr
    obtain ⟨hw, _⟩ := hs.fresh_of_loadable hl
    rw [load_of_ok hr]
    exact
      { hs with
        mem_wf := copyProgram_wf hs.mem_wf _ _ (by omega)
        fault_coherent := { hs.fault_coherent with }
        wait_coherent :=
          { word_of_wait := fun hn => by simp [hw] at hn
            running_of_wait := hs.wait_coherent.running_of_wait
            idle_zero := hs.wait_coherent.idle_zero }
        fresh_of_loadable := nofun }
  · rw [load_of_not_ok hr]
    exact hs

/-- RESUME leaves a halted core, which does not wait, at any PC with a clear fault status (R110). -/
theorem State.Inv.resume (hs : s.Inv) (pc : Word) : (resume pc s).Inv := by
  cases hh : s.fault.halted with
  | false =>
    rw [resume_of_running pc hh]
    exact hs
  | true =>
    have hw : s.wait = false := by
      by_contra hn
      have := hs.wait_coherent.running_of_wait (by simpa using hn)
      simp [hh] at this
    rw [resume_of_halted pc hh]
    exact
      { hs with
        addr_lt := Nat.two_pow_pos _
        fault_coherent := faultCoherent_of_clear rfl
        wait_coherent :=
          { word_of_wait := fun hn => by simp [hw] at hn
            running_of_wait := fun _ => rfl
            idle_zero := hs.wait_coherent.idle_zero }
        fresh_of_loadable := fun _ => ⟨hw, rfl⟩ }

theorem State.Inv.perform (hs : s.Inv) (h : perform c s = .next t) : t.Inv := by
  cases c with
  | cycle => exact hs.cycle h
  | reset => cases h; exact inv_resetCommand hs.params_ok
  | load bytes => cases h; exact hs.load bytes
  | resume pc => cases h; exact hs.resume pc
  | tick => cases h; exact hs.congr_unread ..
  | keypad keys => cases h; exact hs.congr_unread ..
  | random b => cases h; exact hs.congr_unread ..

/-- Settles O21: a step is one command of the host, and the list of the commands to come is not read. -/
theorem stepKeepsTheInvariant : Obligations.StepKeepsTheInvariant := by
  unfold Obligations.StepKeepsTheInvariant
  intro s t hs h
  rcases step_eq_perform s with ⟨_, hc⟩ | ⟨c, rest, _, hc⟩
  · exact hs.perform (hc.symm.trans h)
  · have hrest : ({ s with inbox := rest } : State).Inv := hs.congr_unread ..
    exact hrest.perform (hc.symm.trans h)

end Sys2Proof.Machine
end

section
/-! SUPPORT. Reset, launch and runs (spec/70_reset_and_hazards.md R122 to R124): the reset state element by element,
the one LOAD, and the invariant along a run. -/

namespace Sys2Proof.Machine

open Sys2Proof.Claims

variable {r s t : State} {bytes : List Byte} {p : Params}

/-! ## The reset state -/

theorem reg_resetWith (p : Params) (x : RegIx) : (State.resetWith p).reg x = 0 := by
  simp [State.reg, State.resetWith]

/-- Nothing is written at reset, so a byte reads as its reset contents (R14, R28). -/
theorem byte_resetWith (p : Params) (a : Nat) :
    (State.resetWith p).byte a = if h : 0x050 ≤ a ∧ a ≤ 0x09F then p.font[a - 0x050] else 0 := by
  show Memory.resetByte p.font a = _
  unfold Memory.resetByte
  split
  next h => rw [dif_pos (by omega)]
  next h => rw [dif_neg (by omega)]

/-- Settles O15, field by field. -/
theorem resetValues : Obligations.ResetValues := by
  unfold Obligations.ResetValues
  refine ⟨rfl, rfl, fun p s hs => ?values⟩
  case values =>
    subst hs
    refine ⟨rfl, reg_resetWith p, rfl, rfl, rfl, ?stack, rfl, rfl, byte_resetWith p, pixel_zero, rfl, rfl, rfl, rfl⟩
    case stack => exact fun k => by simp [State.resetWith]

/-- Settles O16: RESET is the reset state but for the inputs. -/
theorem resetCommandFromAnyState : Obligations.ResetCommandFromAnyState := by
  unfold Obligations.ResetCommandFromAnyState
  exact fun s => ⟨resetCommand s, rfl, rfl, rfl, rfl, rfl, rfl⟩

/-- Settles O17: nothing is stored, pushed, armed or latched at reset, and the spec's I_WIDTH is 16. -/
theorem resetMeetsTheInvariant : Obligations.ResetMeetsTheInvariant := by
  unfold Obligations.ResetMeetsTheInvariant
  have hok : Config.params.Ok := by decide
  exact ⟨inv_resetWith hok, fun p hp => inv_resetWith hp⟩

/-! ## LOAD (R40, R41) -/

/-- LOAD, while it is open, copies the bytes to 0x200 and leaves every other byte. -/
theorem byte_load (hm : s.memWf) (h : loadResponse bytes s = .ok) (a : Nat) :
    (load bytes s).byte a =
      if 0x200 ≤ a ∧ a < 0x200 + bytes.length then bytes.getD (a - 0x200) 0 else s.byte a := by
  have hlen := (loadResponse_ok.mp h).2
  rw [load_of_ok h]
  exact copyProgram_read hm 0x200 bytes (by omega) a

theorem respond_load (bytes : List Byte) (s : State) : respond (.load bytes) s = .loaded (loadResponse bytes s) := rfl

theorem perform_load (bytes : List Byte) (s : State) : perform (.load bytes) s = .next (load bytes s) := rfl

theorem loadResponse_of_closed (bytes : List Byte) (h : s.loadable = false) : loadResponse bytes s = .refused := by
  simp [loadResponse, h]

theorem loadResponse_of_long (h : s.loadable = true) (hlen : 3584 < bytes.length) :
    loadResponse bytes s = .programTooLarge := by
  simp [loadResponse, h, hlen]

/-- Settles O51, by the three responses of LOAD: only OK changes the state. -/
theorem loadOnceBeforeTheFirstCycle : Obligations.LoadOnceBeforeTheFirstCycle := by
  unfold Obligations.LoadOnceBeforeTheFirstCycle
  intro s bytes hm
  refine ⟨fun hl hlen => ?accepted, fun hl hlen => ?long, fun hl => ?closed⟩
  case accepted =>
    have hok : loadResponse bytes s = .ok := loadResponse_ok.mpr ⟨hl, hlen⟩
    refine ⟨by rw [respond_load, hok], _, perform_load bytes s, byte_load hm hok, ?frame⟩
    case frame => rw [load_of_ok hok]
  case long =>
    have hlong := loadResponse_of_long hl hlen
    exact ⟨by rw [respond_load, hlong], by rw [perform_load, load_of_not_ok (by simp [hlong])]⟩
  case closed =>
    have hclosed := loadResponse_of_closed bytes hl
    exact ⟨by rw [respond_load, hclosed], by rw [perform_load, load_of_not_ok (by simp [hclosed])]⟩

/-! ## Launch (R124) -/

theorem loadResponse_resetCommand (r : State) (h : bytes.length ≤ 3584) :
    loadResponse bytes (resetCommand r) = .ok := loadResponse_ok.mpr ⟨rfl, h⟩

theorem launch_load (r : State) (h : bytes.length ≤ 3584) : Launch (load bytes (resetCommand r)) :=
  ⟨r, bytes, loadResponse_resetCommand r h, rfl⟩

theorem inv_load_resetCommand (hp : r.params.Ok) (bytes : List Byte) : (load bytes (resetCommand r)).Inv :=
  (inv_resetCommand hp).load bytes

/-- Settles O18: the two commands one after the other, over a memory with nothing written. -/
theorem launchStates : Obligations.LaunchStates := by
  unfold Obligations.LaunchStates
  intro r bytes h
  have hok := loadResponse_resetCommand r h
  refine ⟨resetCommand r, load bytes (resetCommand r), rfl, by rw [respond_load, hok], perform_load bytes _,
    launch_load r h, fun hp => inv_load_resetCommand hp bytes, ?frame, byte_load Memory.wf_nil hok⟩
  case frame =>
    rw [load_of_ok hok]
    rfl

/-- Settles O19: each step carries out the command that waits first. -/
theorem launchByCommands : Obligations.LaunchByCommands := by
  unfold Obligations.LaunchByCommands
  intro s bytes rest hs h
  refine ⟨resetCommand { s with inbox := .load bytes :: rest }, load bytes (resetCommand { s with inbox := rest }),
    ?reset, ?load, launch_load _ h, ?values⟩
  case reset => exact step_of_command hs
  case load => exact step_of_command (s := resetCommand { s with inbox := .load bytes :: rest }) rfl
  case values =>
    rw [load_of_ok (loadResponse_resetCommand _ h)]
    exact ⟨rfl, rfl, rfl, rfl⟩

/-! ## Runs -/

theorem inv_of_launch (h : Launch s) (hp : s.params.Ok) : s.Inv := by
  obtain ⟨r, bytes, _, rfl⟩ := h
  rw [load_params] at hp
  exact inv_load_resetCommand hp bytes

/-- Settles O20: a launch state meets the invariant and every command of a run keeps it. -/
theorem runsKeepTheInvariant : Obligations.RunsKeepTheInvariant := by
  unfold Obligations.RunsKeepTheInvariant
  intro cs s t hlaunch hp hrun
  exact run_keeps hrun (fun c s t _ hc hs => hs.perform hc) (inv_of_launch hlaunch hp)

/-! ## PC along a run (R23) -/

/-- No next PC of an instruction fetched under the invariant exceeds 0xFFF + 0xFF, the highest indexed target. -/
theorem nextPc_le {i : Instr} (hs : s.Inv) (hpc : s.pc.toNat ≤ 0xFFE) : (nextPc i s).toNat ≤ 0x10FE := by
  have h2 : (s.pc + 2).toNat ≤ 0x10FE := by bv_omega
  have h4 : (s.pc + 4).toNat ≤ 0x10FE := by bv_omega
  cases i with
  | jpAddr nnn | callAddr nnn =>
    have := nnn.isLt
    exact (target_toNat nnn).trans_le (by omega)
  | jpV0Addr nnn =>
    have hn := nnn.isLt
    have hv := (s.reg 0).isLt
    show (nnn.setWidth 16 + (s.reg 0).setWidth 16).toNat ≤ 0x10FE
    rw [← indexedTarget_eq, indexedTarget_toNat]
    omega
  | ret =>
    have hk := hs.stack_le ⟨s.sp.val - 1, by omega⟩
    exact hk.trans (by decide)
  | ldVxK x =>
    show (if _ then s.pc + 2 else s.pc).toNat ≤ 0x10FE
    split <;> omega
  | seVxByte | sneVxByte | seVxVy | sneVxVy | skpVx | sknpVx =>
    show (if _ then s.pc + 4 else s.pc + 2).toNat ≤ 0x10FE
    split <;> assumption
  | _ => exact h2

theorem cycle_pc (hs : s.Inv) (h : cycle s = .next t) : t.pc = s.pc ∨ t.pc.toNat ≤ 0x10FE := by
  rcases cycle_cases s with ⟨_, hc⟩ | ⟨_, c, _, hc⟩ | ⟨_, w, e, _, _, hc⟩ | ⟨_, w, i, hf, hd, hc⟩
  · cases hc.symm.trans h
    exact .inl rfl
  · cases hc.symm.trans h
    exact .inl rfl
  · cases hc.symm.trans h
    exact .inl rfl
  · obtain ⟨hnone, hfault⟩ := everyInstructionSetsPcByItsClass i s.closeLoad t (hc.symm.trans h)
    by_cases hn : faultOf i s.closeLoad = none
    · exact .inr (hnone hn ▸ nextPc_le hs.closeLoad (le_of_fetch hf))
    · exact .inl (hfault hn)

/-- Settles O23: fault entry keeps PC, a completed instruction's next PC is bounded, and a fetch needs PC at most
0xFFE. -/
theorem cycleKeepsPcOrWritesAtMost10FE : Obligations.CycleKeepsPcOrWritesAtMost10FE := by
  unfold Obligations.CycleKeepsPcOrWritesAtMost10FE
  refine ⟨fun s t => cycle_pc, fun s w hf => ?sums⟩
  case sums =>
    have hpc := le_of_fetch hf
    constructor <;> bv_omega

end Sys2Proof.Machine
end

section
/-! SUPPORT. One CYCLE and its response (spec/20_memory.md R31, R35, spec/30_encoding.md R47, R50,
spec/60_exceptions.md R105, R109). -/

namespace Sys2Proof.Machine

open Sys2Proof.Claims

variable {s t : State}

/-! ## The fetch and the decoded instruction -/

/-- Settles O9, by the join of the two bytes as a number. -/
theorem fetchIsBigEndian : Obligations.FetchIsBigEndian := by
  unfold Obligations.FetchIsBigEndian
  intro s hpc
  have hlo := (s.byte (s.pc.toNat + 1)).isLt
  refine ⟨_, fetch_of_le hpc, ?_, ?_⟩
  all_goals
    rw [joinBytes_toNat]
    omega

theorem decodeWord_of_decodeBytes {hi lo : Byte} {i : Instr} (h : decodeBytes [hi, lo] = .ok (i, [])) :
    decodeWord (joinBytes hi lo) = .ok i := by
  simp only [decodeBytes] at h
  split at h
  next hd => cases h; exact hd
  next => cases h

/-- Settles O7: the fetched word is the decoded bytes', and the list of the commands to come is not read. -/
theorem stepRunsTheDecodedInstruction : Obligations.StepRunsTheDecodedInstruction := by
  unfold Obligations.StepRunsTheDecodedInstruction
  intro s i hrun hpc hb
  have hd := decodeWord_of_decodeBytes hb
  refine ⟨fun hs => ?none, fun rest hs => ?command⟩
  case none => exact (step_of_no_command hs).trans (cycle_of_decoded hrun (fetch_of_le hpc) hd)
  case command =>
    exact (step_of_command hs).trans
      (cycle_of_decoded (s := { s with inbox := rest }) hrun (fetch_of_le (s := { s with inbox := rest }) hpc) hd)

/-- Settles O8, by the two cases of the list of commands. -/
theorem stepPerformsTheFirstCommand : Obligations.StepPerformsTheFirstCommand := by
  unfold Obligations.StepPerformsTheFirstCommand
  exact fun s => ⟨step_of_no_command, fun c rest => step_of_command⟩

/-! ## Cycles that run no instruction -/

/-- Settles O10, by the failing fetch, which fault entry records with no word. -/
theorem fetchBeyondMemoryFaults : Obligations.FetchBeyondMemoryFaults := by
  unfold Obligations.FetchBeyondMemoryFaults
  intro s hrun hpc
  exact ⟨_, cycle_of_fetch_error hrun (fetch_of_ge hpc), records_takeFault s.closeLoad _ none, rfl⟩

/-- Settles O11: a word of the table is rejected by the decoder, and fault entry records it. -/
theorem invalidWordFaults : Obligations.InvalidWordFaults := by
  unfold Obligations.InvalidWordFaults
  intro s w hrun hf hw
  obtain ⟨e, hd⟩ := (invalidWordsAreThoseOfTheTable w).mpr hw
  exact ⟨_, cycle_of_invalid hrun hf hd, records_takeFault s.closeLoad _ (some w), rfl⟩

/-- Settles O12, by the halted case of the cycle and of its response. -/
theorem haltedCycleChangesNothing : Obligations.HaltedCycleChangesNothing := by
  unfold Obligations.HaltedCycleChangesNothing
  exact fun s h => ⟨cycle_of_halted h, if_pos h⟩

/-! ## The response -/

/-- A cycle that halts a running core records the PC it fetched at, which fault entry keeps. -/
theorem faultPc_of_cycle (hrun : s.fault.halted = false) (h : cycle s = .next t) (hh : t.fault.halted = true) :
    t.fault.pc = s.pc := by
  rcases cycle_cases s with ⟨hs, _⟩ | ⟨_, c, _, hc⟩ | ⟨_, w, e, _, _, hc⟩ | ⟨_, w, i, _, _, hc⟩
  · simp [hrun] at hs
  · cases hc.symm.trans h
    rfl
  · cases hc.symm.trans h
    rfl
  · rcases exec_cases (hc.symm.trans h) with ⟨_, hsame, _⟩ | ⟨c, u, _, he, rfl⟩
    · rw [hsame, closeLoad_fault, hrun] at hh
      cases hh
    · exact he.pc

theorem respond_cycle (hrun : s.fault.halted = false) (h : cycle s = .next t) :
    respond .cycle s = cycleResponse t := by
  simp [respond, hrun, h]

/-- Settles O13, by the response of the state the cycle leads to. -/
theorem cycleResponds : Obligations.CycleResponds := by
  unfold Obligations.CycleResponds
  intro s t hrun h
  rw [respond_cycle hrun h]
  refine ⟨fun hh => ?fault, fun hh hw => ?waiting, fun hh hw => ?ok⟩
  case fault => rw [← faultPc_of_cycle hrun h hh, cycleResponse, if_pos hh, faultResponse]
  case waiting => simp [cycleResponse, hh, hw]
  case ok => simp [cycleResponse, hh, hw]

/-! ## The idle state (R121) -/

/-- Settles O53: the jump to itself writes PC with the value it has. -/
theorem idleStaysIdle : Obligations.IdleStaysIdle := by
  unfold Obligations.IdleStaysIdle
  rintro s ⟨hrun, hwait, nnn, hf, hpc⟩
  have hself : { s with loadable := false, pc := target nnn } = { s with loadable := false } := by rw [hpc]
  refine ⟨{ s with loadable := false }, ?cycle, rfl, hrun, hwait, nnn, hf, hpc⟩
  case cycle => exact hself ▸ cycle_of_decoded hrun hf (decodeWord_encode _)

end Sys2Proof.Machine
end

section
/-! SUPPORT. CALL and RET (spec/41_control.md R63 to R68): the pair on each side of its check, and the entry that one
pushes and the other pops. -/

namespace Sys2Proof.Machine

open Sys2Proof.Claims

variable {i : Instr} {s t : State}

/-- An instruction that ends in fault entry on the state as it found it writes nothing but the fault status. -/
theorem raises_of_takeFault {c : FaultCause} (hx : exec i s = .next (takeFault c (some (encode i)) s)) :
    ∃ t, exec i s = .next t ∧ Records t.fault c.kind.code s.pc (some (encode i)) c.addr ∧ OnlyFault s t :=
  ⟨_, hx, records_takeFault s c _, onlyFault_takeFault s c _⟩

/-- Settles O29, by the push on each side of its check. -/
theorem callPushesTheReturnAddress : Obligations.CallPushesTheReturnAddress := by
  unfold Obligations.CallPushesTheReturnAddress
  intro s nnn
  refine ⟨fun h => ?pushes, fun h => raises_of_takeFault (exec_callAddr_of_full nnn h)⟩
  case pushes =>
    refine ⟨_, exec_callAddr_of_lt nnn h, target_toNat nnn, rfl, ?slot, fun k hk hne => ?others, rfl,
      byte_congr rfl rfl⟩
    case slot => exact Vector.getElem_set_self h
    case others => exact Vector.getElem_set_ne h hk (Ne.symm hne)

/-- Settles O30, by the pop on each side of its check. -/
theorem retPopsTheReturnAddress : Obligations.RetPopsTheReturnAddress := by
  unfold Obligations.RetPopsTheReturnAddress
  intro s
  refine ⟨fun h => ?pops, fun h => raises_of_takeFault (exec_ret_of_zero h)⟩
  case pops => exact ⟨_, exec_ret_of_pos h, rfl, Nat.sub_add_cancel h, rfl, byte_congr rfl rfl⟩

/-- Settles O31: the RET pops the slot below the SP that the CALL left, which is the slot the CALL wrote. -/
theorem callThenRetReturns : Obligations.CallThenRetReturns := by
  unfold Obligations.CallThenRetReturns
  intro s t u nnn h hcall hsp hslot
  cases (exec_callAddr_of_lt nnn h).symm.trans hcall
  have hval : u.sp.val = s.sp.val + 1 := congrArg Fin.val hsp
  refine ⟨_, exec_ret_of_pos (by omega), ?pc, ?sp⟩
  case pc =>
    have htop : u.stack[u.sp.val - 1]'(by omega) = u.stack[s.sp.val] := by simp [hval]
    rw [htop, hslot]
    exact Vector.getElem_set_self h
  case sp => exact Fin.ext (by simp [hval])

end Sys2Proof.Machine
end

section
/-! SUPPORT. The writes of I (spec/43_index_memory.md R90 to R92), the key skips (spec/44_keys_timers.md R97, R98) and
RND (spec/42_alu.md R89). -/

namespace Sys2Proof.Machine

open Sys2Proof.Claims

/-- Only I and PC differ after a write of I. -/
theorem onlyIPc_setI (s : State) (n : Nat) : OnlyIPc s ({ s with i := n }.advance 2) :=
  ⟨rfl, byte_congr rfl rfl⟩

/-- Settles O32: both write I and PC alone, and the glyph's address needs a digit. -/
theorem settingI : Obligations.SettingI := by
  unfold Obligations.SettingI
  intro s x nnn
  refine ⟨?addr, fun h => ?glyph, fun h => raises_of_takeFault (exec_ldIVx_of_gt h)⟩
  case addr => exact ⟨_, rfl, rfl, rfl, onlyIPc_setI s _⟩
  case glyph => exact ⟨_, exec_ldIVx_of_le h, rfl, rfl, onlyIPc_setI s _⟩

/-- Settles O33, by the one next state of ADD I, Vx. -/
theorem addIWrapsAtItsStorageWidth : Obligations.AddIWrapsAtItsStorageWidth := by
  unfold Obligations.AddIWrapsAtItsStorageWidth
  exact fun s x => ⟨_, rfl, rfl, rfl, onlyIPc_setI s _⟩

/-- Settles O43: on each side of 15, both end in the skip on their condition or in fault entry. -/
theorem keySkips : Obligations.KeySkips := by
  unfold Obligations.KeySkips
  intro s x
  refine ⟨fun h => ⟨?skp, ?sknp⟩, fun h => ⟨?skpFault, ?sknpFault⟩⟩
  case skp => exact skips_of_skipIf (exec_skpVx_of_le h) Iff.rfl
  case sknp => exact skips_of_skipIf (exec_sknpVx_of_le h) (iff_of_eq (Bool.not_eq_true' _))
  case skpFault => exact raises_of_takeFault (exec_skpVx_of_gt h)
  case sknpFault => exact raises_of_takeFault (exec_sknpVx_of_gt h)

/-- Settles O26: the draw is the head of the supplied bytes or the free value, and the mask is an AND. -/
theorem rndMasksOneDraw : Obligations.RndMasksOneDraw := by
  unfold Obligations.RndMasksOneDraw
  intro s x nn
  have hx : (((s.consumeRandom).setReg x (s.nextRandom &&& nn)).advance 2).reg x = s.nextRandom &&& nn :=
    reg_setReg_same _ x _
  refine ⟨_, s.nextRandom, rfl, fun b bs hr => ?supplied, fun hr => ?free, rfl, hx, fun j hj => ?mask,
    fun k hk => reg_setReg_ne _ _ hk, rfl, rfl, byte_congr rfl rfl⟩
  case supplied => exact ⟨by simp [State.nextRandom, hr], by simp [hr]⟩
  case free => exact ⟨by simp [State.nextRandom, hr], by simp [hr]⟩
  case mask => rw [hx, BitVec.getLsbD_and, hj, Bool.and_false]

end Sys2Proof.Machine
end

section
/-! SUPPORT. LD B, Vx; LD [I], Vx and LD Vx, [I] (spec/43_index_memory.md R93 to R96), and the fetch of a stored word
(spec/20_memory.md section 6). -/

namespace Sys2Proof.Machine

open Sys2Proof.Claims

variable {s t : State} {x : RegIx}

/-! ## The bytes an instruction stores -/

/-- The three digits as numbers; the hundreds of a byte are at most 2, so no digit is cut. -/
theorem ofNat_hundreds_toNat (b : Byte) : (BitVec.ofNat 8 (b.toNat / 100)).toNat = b.toNat / 100 := by
  have := b.isLt
  exact Nat.mod_eq_of_lt (by omega)

theorem ofNat_tens_toNat (b : Byte) : (BitVec.ofNat 8 (b.toNat / 10 % 10)).toNat = b.toNat / 10 % 10 :=
  Nat.mod_eq_of_lt (by omega)

theorem ofNat_units_toNat (b : Byte) : (BitVec.ofNat 8 (b.toNat % 10)).toNat = b.toNat % 10 :=
  Nat.mod_eq_of_lt (by omega)

/-- Each byte LD B stores is a decimal digit of V[x]. -/
theorem bcdDigits_getD_toNat (b : Byte) {k : Nat} (hk : k ≤ 2) :
    ((bcdDigits b).getD k 0).toNat = decimalDigit b.toNat k := by
  obtain rfl | rfl | rfl : k = 0 ∨ k = 1 ∨ k = 2 := by omega
  · exact ofNat_hundreds_toNat b
  · exact ofNat_tens_toNat b
  · exact ofNat_units_toNat b

/-- Each byte LD [I] stores is a register's. -/
theorem regsUpTo_getD (s : State) {x k : RegIx} (hk : k.toNat ≤ x.toNat) :
    (s.regsUpTo x).getD k.toNat 0 = s.reg k := by
  have hx : k.toNat < (s.regsUpTo x).length := by rw [regsUpTo_length]; omega
  rw [List.getD_eq_getElem _ _ hx]
  simp [State.regsUpTo, State.reg]

/-! ## Stores (R93, R94) -/

theorem storesFromI_ldBVx (hm : s.memWf) (x : RegIx) : StoresFromI (.ldBVx x) (bcdDigits (s.reg x)) s := by
  unfold StoresFromI
  rw [bcdDigits_length]
  refine ⟨fun h => ?completes, fun h => ?faults⟩
  case completes => exact ⟨_, exec_ldBVx_of_le h, stored_storeBytes hm _, rfl, rfl⟩
  case faults => exact ⟨_, exec_ldBVx_of_gt h, stored_storeBytes hm _, records_takeFault _ _ _, rfl⟩

theorem storesFromI_ldMemVx (hm : s.memWf) (x : RegIx) : StoresFromI (.ldMemVx x) (s.regsUpTo x) s := by
  unfold StoresFromI
  rw [regsUpTo_length]
  refine ⟨fun h => ?completes, fun h => ?faults⟩
  case completes => exact ⟨_, exec_ldMemVx_of_le h, stored_storeBytes hm _, rfl, rfl⟩
  case faults => exact ⟨_, exec_ldMemVx_of_gt h, stored_storeBytes hm _, records_takeFault _ _ _, rfl⟩

/-- Settles O34, by the store sequence of the three digits. -/
theorem bcdStoresThreeDigits : Obligations.BcdStoresThreeDigits := by
  unfold Obligations.BcdStoresThreeDigits
  intro s x hm
  have hv := (s.reg x).isLt
  refine ⟨BitVec.ofNat 8 ((s.reg x).toNat / 100), BitVec.ofNat 8 ((s.reg x).toNat / 10 % 10),
    BitVec.ofNat 8 ((s.reg x).toNat % 10), ?sum, ?hundreds, ?tens, ?units, storesFromI_ldBVx hm x⟩
  all_goals
    simp only [ofNat_hundreds_toNat, ofNat_tens_toNat, ofNat_units_toNat]
    omega

/-- Settles O35, by the store sequence of the registers. -/
theorem registersAreStoredFromI : Obligations.RegistersAreStoredFromI := by
  unfold Obligations.RegistersAreStoredFromI
  exact fun s x hm => ⟨s.regsUpTo x, regsUpTo_length s x, fun k => regsUpTo_getD s, storesFromI_ldMemVx hm x⟩

/-! ## Loads (R95) -/

/-- Settles O36, by the load sequence on each side of its bounds check. -/
theorem registersAreLoadedFromI : Obligations.RegistersAreLoadedFromI := by
  unfold Obligations.RegistersAreLoadedFromI
  intro s x
  refine ⟨fun h => ?completes, fun h => ?faults⟩
  case completes =>
    exact ⟨_, exec_ldVxMem_of_le (by omega), loaded_loadRegs s x, rfl, rfl, byte_congr rfl rfl⟩
  case faults =>
    exact ⟨_, exec_ldVxMem_of_gt (by omega), loaded_loadRegs s x, records_takeFault _ _ _, rfl, byte_congr rfl rfl⟩

/-! ## What a later instruction or fetch reads of a store (R96, R39, R128) -/

/-- A store leaves its bytes inside the memory whether it completes or not. -/
theorem stored_of_storesFromI {i : Instr} {bytes : List Byte} (hi : StoresFromI i bytes s) (h : exec i s = .next t) :
    Stored s t s.i bytes := by
  obtain ⟨hcompletes, hfaults⟩ := hi
  rcases Nat.lt_or_ge 4096 (s.i + bytes.length) with hn | hn
  · obtain ⟨u, hx, hstored, _⟩ := hfaults hn
    cases hx.symm.trans h
    exact hstored
  · obtain ⟨u, hx, hstored, _⟩ := hcompletes hn
    cases hx.symm.trans h
    exact hstored

theorem byte_of_ldMemVx (hm : s.memWf) (h : exec (.ldMemVx x) s = .next t) {k : RegIx} (hk : k.toNat ≤ x.toNat)
    (ha : s.i + k.toNat < 4096) : t.byte (s.i + k.toNat) = s.reg k := by
  have hstored := stored_of_storesFromI (storesFromI_ldMemVx hm x) h
  rw [(hstored (s.i + k.toNat)).1 (by omega) (by rw [regsUpTo_length]; omega) ha, Nat.add_sub_cancel_left,
    regsUpTo_getD s hk]

theorem byte_of_ldBVx (hm : s.memWf) (h : exec (.ldBVx x) s = .next t) {k : Nat} (hk : k ≤ 2)
    (ha : s.i + k < 4096) : (t.byte (s.i + k)).toNat = decimalDigit (s.reg x).toNat k := by
  have hstored := stored_of_storesFromI (storesFromI_ldBVx hm x) h
  rw [(hstored (s.i + k)).1 (by omega) (by rw [bcdDigits_length]; omega) ha, Nat.add_sub_cancel_left,
    bcdDigits_getD_toNat _ hk]

/-- Settles O37: the load reads V[k] at I + k, where the store left it. -/
theorem storeThenLoadRestoresRegisters : Obligations.StoreThenLoadRestoresRegisters := by
  unfold Obligations.StoreThenLoadRestoresRegisters
  intro s t u x hm hx hstore hi hbytes
  refine ⟨_, exec_ldVxMem_of_le (by omega), fun k hk => ?_⟩
  calc
    _ = u.byte (u.i + k.toNat) := (loaded_loadRegs u x k).1 hk (by omega)
    _ = t.byte (s.i + k.toNat) := by rw [hi, hbytes k.toNat hk]
    _ = s.reg k := byte_of_ldMemVx hm hstore hk (by omega)

/-- Settles O38: the fetch joins the two bytes at PC, which are the two the store left there. -/
theorem storedWordIsFetched : Obligations.StoredWordIsFetched := by
  unfold Obligations.StoredWordIsFetched
  intro s t u x k hm ha hpc h0 h1
  have hfetch : fetch u = .ok (joinBytes (t.byte (s.i + k)) (t.byte (s.i + (k + 1)))) := by
    rw [fetch_of_le (by omega), hpc, h0, h1, Nat.add_assoc]
  refine ⟨fun hstore hk p q hp hq => ?registers, fun hstore hk => ⟨_, hfetch, ?digits⟩⟩
  case registers =>
    subst hp
    rw [hfetch, ← hq, byte_of_ldMemVx hm hstore (by omega) (by omega),
      byte_of_ldMemVx hm hstore (by omega) (by omega)]
  case digits =>
    rw [joinBytes_toNat, byte_of_ldBVx hm hstore (by omega) (by omega), byte_of_ldBVx hm hstore hk (by omega),
      Nat.mul_comm]

end Sys2Proof.Machine
end

section
/-! SUPPORT. DRW (spec/40_display.md R56 to R62): one draw, complete or cut, and the same draw made twice. -/

namespace Sys2Proof.Machine

open Sys2Proof.Claims

variable {s t u : State} {x y x' y' : RegIx} {n : Nibble}

/-! ## One draw -/

theorem bitByte_eq_one_iff {c : Bool} : bitByte c = 1 ↔ c = true := by cases c <;> decide

/-- VF after a completed draw says whether a drawn 1 fell on a 1 (R58). -/
theorem reg_flag_of_draw (s : State) (x y : RegIx) (n : Nibble) :
    (({ s with fb := (s.sprite x y n).1.fb }.setFlag (s.sprite x y n).1.col).advance 2).reg 0xF =
      bitByte (s.sprite x y n).1.col :=
  reg_setFlag_flag _ _

/-- Settles O40, by the draw whose every row can be read. -/
theorem drwDrawsTheSprite : Obligations.DrwDrawsTheSprite := by
  unfold Obligations.DrwDrawsTheSprite
  intro s x y n h
  refine ⟨_, exec_drwVxVyNibble_of_readable h, drawn_sprite s x y n, fun hc => ?collides, fun hc => ?clear,
    fun k hk => reg_setFlag_ne _ _ hk, rfl, rfl, byte_congr rfl rfl⟩
  case collides => rw [reg_flag_of_draw, (sprite_col s x y n).mpr hc, bitByte, if_pos rfl]
  case clear =>
    have hcol : (s.sprite x y n).1.col = false := by simpa using (sprite_col s x y n).not.mpr hc
    rw [reg_flag_of_draw, hcol, bitByte, if_neg Bool.false_ne_true]

/-- Settles O41, by the draw that is cut at its first row outside the memory. -/
theorem drwFaultsAtTheFirstRowOutside : Obligations.DrwFaultsAtTheFirstRowOutside := by
  unfold Obligations.DrwFaultsAtTheFirstRowOutside
  intro s x y n h
  exact ⟨_, exec_drwVxVyNibble_of_not_readable h, drawn_sprite s x y n, records_takeFault _ _ _, rfl,
    byte_congr rfl rfl⟩

/-- A completed draw in the words of the statements. -/
theorem drw_of_readable (h : SpriteReadable s n) : ∃ t, exec (.drwVxVyNibble x y n) s = .next t ∧
    Drawn s t x y n ∧ (t.reg 0xF = 1 ↔ Collides s x y n) := by
  refine ⟨_, exec_drwVxVyNibble_of_readable h, drawn_sprite s x y n, ?flag⟩
  case flag => rw [reg_flag_of_draw, bitByte_eq_one_iff, sprite_col]

/-! ## The same draw made twice (R62) -/

/-- Two framebuffers are the same when every pixel of the screen is. -/
theorem fb_ext {f g : Framebuffer} (h : ∀ px py, px < 64 → py < 32 → pixel f px py = pixel g px py) : f = g := by
  apply BitVec.eq_of_getLsbD_eq
  intro k hk
  have hkp : k / 64 * 64 + k % 64 = k := Nat.div_add_mod' k 64
  have hp := h (k % 64) (k / 64) (by omega) (by omega)
  rwa [pixel, pixel, hkp] at hp

/-- The pixels of a sprite depend on its origin, on I and on its own bytes. -/
theorem spriteOne_congr (hi : u.i = s.i) (hb : ∀ j < n.toNat, u.byte (s.i + j) = s.byte (s.i + j))
    (hx : u.reg x' = s.reg x) (hy : u.reg y' = s.reg y) {px py : Nat} :
    SpriteOne u x' y' n px py ↔ SpriteOne s x y n px py := by
  unfold SpriteOne
  rw [hi, hx, hy]
  refine and_congr_right fun _ => and_congr_right fun _ => and_congr_right fun hy0 => and_congr_right fun hy1 => ?_
  rw [hb (py - (s.reg y).toNat) (by omega)]

/-- A draw of the sprite of s over the screen that a draw of it left: both flip the same cells. -/
theorem drawn_twice {w : State} (hone : ∀ px py, SpriteOne u x' y' n px py ↔ SpriteOne s x y n px py)
    (hfirst : Drawn s t x y n) (hfb : u.fb = t.fb) (hsecond : Drawn u w x' y' n) : w.fb = s.fb := by
  apply fb_ext
  intro px py hx hy
  obtain ⟨hflip1, hkeep1⟩ := hfirst px py hx hy
  obtain ⟨hflip2, hkeep2⟩ := hsecond px py hx hy
  rw [hone, hfb] at hflip2 hkeep2
  by_cases h : SpriteOne s x y n px py
  · rw [hflip2 h, hflip1 h, Bool.not_not]
  · rw [hkeep2 h, hkeep1 h]

/-- After a draw of the sprite, its 1-pixels meet a 1 exactly where they met a 0 before. -/
theorem collides_after_draw (hone : ∀ px py, SpriteOne u x' y' n px py ↔ SpriteOne s x y n px py)
    (hfirst : Drawn s t x y n) (hfb : u.fb = t.fb) : Collides u x' y' n ↔
      ∃ px py, px < 64 ∧ py < 32 ∧ SpriteOne s x y n px py ∧ pixel s.fb px py = false := by
  refine exists_congr fun px => exists_congr fun py => and_congr_right fun hx => and_congr_right fun hy => ?_
  rw [hone, hfb]
  refine and_congr_right fun h => ?_
  rw [(hfirst px py hx hy).1 h, Bool.not_eq_true']

/-- Settles O42, by the two draws of one sprite. -/
theorem drawingTwiceRestoresTheScreen : Obligations.DrawingTwiceRestoresTheScreen := by
  unfold Obligations.DrawingTwiceRestoresTheScreen
  intro s t u x y x' y' n hread hdraw hfb hi hb hx hy
  obtain ⟨t', hdraw', hfirst, _⟩ := drw_of_readable (x := x) (y := y) hread
  obtain rfl := Host.Outcome.next.inj (hdraw'.symm.trans hdraw)
  have hread' : SpriteReadable u n := by rwa [SpriteReadable, hi]
  obtain ⟨w, hw, hsecond, hflag⟩ := drw_of_readable (x := x') (y := y') hread'
  have hone := fun px py => spriteOne_congr (px := px) (py := py) hi hb hx hy
  exact ⟨w, hw, drawn_twice hone hfirst hfb hsecond, hflag.trans (collides_after_draw hone hfirst hfb)⟩

end Sys2Proof.Machine
end

section
/-! SUPPORT. LD Vx, K (spec/44_keys_timers.md R99): the newly pressed keys, and the lowest of them. -/

namespace Sys2Proof.Machine

open Sys2Proof.Claims

variable {s : State}

/-- A key is newly pressed when it is pressed and was not at the last sample. -/
theorem newKeys_getLsbD (s : State) {k : Nat} (hk : k < 16) :
    s.newKeys.getLsbD k = (s.keypad.getLsbD k && !s.keyPrev.getLsbD k) := by
  simp [State.newKeys, hk]

theorem newKeys_eq_zero (h : ∀ k < 16, s.keypad.getLsbD k = true → s.keyPrev.getLsbD k = true) : s.newKeys = 0 := by
  apply BitVec.eq_of_getLsbD_eq
  intro k hk
  rw [newKeys_getLsbD s hk]
  cases hp : s.keypad.getLsbD k with
  | false => simp
  | true => simp [h k hk hp]

/-- The lowest set bit is the one with none below it. -/
theorem lowestKey_eq {e : Keys} {k : Nat} (hk : e.getLsbD k = true) (hlow : ∀ j < k, e.getLsbD j = false) :
    lowestKey e = k := by
  have hne : e ≠ 0 := by
    rintro rfl
    simp at hk
  obtain ⟨_, hset, hbelow⟩ := lowestKey_spec hne
  rcases Nat.lt_trichotomy (lowestKey e) k with hlt | heq | hgt
  · simp [hlow _ hlt] at hset
  · exact heq
  · simp [hbelow _ hgt] at hk

/-- Settles O44: the bit of k is the lowest of the newly pressed keys. -/
theorem keyWaitCompletesOnANewKey : Obligations.KeyWaitCompletesOnANewKey := by
  unfold Obligations.KeyWaitCompletesOnANewKey
  intro s x k hw hk hnow hprev hlower
  have hset : s.newKeys.getLsbD k = true := by simp [newKeys_getLsbD s hk, hnow, hprev]
  have hbelow : ∀ j < k, s.newKeys.getLsbD j = false := by
    intro j hj
    rw [newKeys_getLsbD s (by omega)]
    cases hp : s.keypad.getLsbD j with
    | false => simp
    | true => simp [hlower j hj hp]
  have hne : s.newKeys ≠ 0 := fun h0 => by simp [h0] at hset
  refine ⟨_, exec_ldVxK_completes x hw hne, ?value, fun r hr => reg_setReg_ne _ _ hr, rfl, rfl, rfl, rfl, rfl,
    byte_congr rfl rfl⟩
  case value =>
    rw [reg_advance, reg_setReg_same, lowestKey_eq hset hbelow]
    exact Nat.mod_eq_of_lt (by omega)

/-- Settles O45, by the arming and the sampling of the wait. -/
theorem keyWaitHoldsPc : Obligations.KeyWaitHoldsPc := by
  unfold Obligations.KeyWaitHoldsPc
  exact fun s x => ⟨exec_ldVxK_arms x, fun hw h => exec_ldVxK_samples x hw (newKeys_eq_zero h)⟩

end Sys2Proof.Machine
end

section
/-! SUPPORT. Noninterference (spec/10_state.md R13, R15, R17, R21, R24): a change of an element that an instruction
does not handle goes through the instruction unchanged. One lemma over all instructions serves the inputs, the
timers, the framebuffer and the fields of the model's own. -/

namespace Sys2Proof.Machine

open Sys2Proof.Claims

variable {i : Instr} {s t : State}

/-- A change of the elements that only a few named instructions handle, or none. -/
structure SideChange where
  keypad : Keys → Keys := id
  rnd : List Byte → List Byte := id
  draws : Nat → Nat := id
  dt : Byte → Byte := id
  st : Byte → Byte := id
  fb : Framebuffer → Framebuffer := id
  inbox : List Command → List Command := id

def SideChange.app (m : SideChange) (s : State) : State :=
  { s with
    keypad := m.keypad s.keypad, rnd := m.rnd s.rnd, draws := m.draws s.draws, dt := m.dt s.dt, st := m.st s.st
    fb := m.fb s.fb, inbox := m.inbox s.inbox }

/-- The change leaves alone every element the instruction reads or writes. -/
structure SideChange.Unseen (m : SideChange) (i : Instr) : Prop where
  keypad : readsKeypad i = true → m.keypad = id := by exact fun _ => rfl
  random : consumesRandom i = true → m.rnd = id ∧ m.draws = id := by exact fun _ => ⟨rfl, rfl⟩
  timers : usesTimers i = true → m.dt = id := by exact fun _ => rfl
  st : writesSt i = true → m.st = id := by exact fun _ => rfl
  fb : writesFb i = true → m.fb = id := by exact fun _ => rfl

variable {m : SideChange}

theorem app_skipIf (m : SideChange) (s : State) (c : Bool) : (m.app s).skipIf c = m.app (s.skipIf c) := by
  cases c <;> rfl

/-- The instruction makes of the changed state the change of what it makes of the state. -/
def Commutes (i : Instr) (m : SideChange) (s : State) : Prop := exec i (m.app s) = mapNext m.app (exec i s)

theorem Commutes.of_next (hs : exec i s = .next t) (hm : exec i (m.app s) = .next (m.app t)) : Commutes i m s := by
  rw [Commutes, hs, hm, mapNext]

/-- An instruction that ends in a skip, on a condition that the change does not reach. -/
theorem Commutes.of_skipIf {c : Bool} (hs : exec i s = .next (s.skipIf c))
    (hm : exec i (m.app s) = .next ((m.app s).skipIf c)) : Commutes i m s :=
  .of_next hs (hm.trans (congrArg _ (app_skipIf m s c)))

/-! ## The instructions with a condition -/

theorem commutes_callAddr (nnn : Addr12) : Commutes (.callAddr nnn) m s := by
  rcases Nat.lt_or_ge s.sp.val 16 with h | h
  · exact .of_next (exec_callAddr_of_lt nnn h) (exec_callAddr_of_lt (s := m.app s) nnn h)
  · have hfull : s.sp.val = 16 := by omega
    exact .of_next (exec_callAddr_of_full nnn hfull) (exec_callAddr_of_full (s := m.app s) nnn hfull)

theorem commutes_ret : Commutes .ret m s := by
  rcases Nat.eq_zero_or_pos s.sp.val with h | h
  · exact .of_next (exec_ret_of_zero h) (exec_ret_of_zero (s := m.app s) h)
  · exact .of_next (exec_ret_of_pos h) (exec_ret_of_pos (s := m.app s) h)

theorem commutes_ldIVx (x : RegIx) : Commutes (.ldIVx x) m s := by
  rcases Nat.lt_or_ge 15 (s.reg x).toNat with h | h
  · exact .of_next (exec_ldIVx_of_gt h) (exec_ldIVx_of_gt (s := m.app s) h)
  · exact .of_next (exec_ldIVx_of_le h) (exec_ldIVx_of_le (s := m.app s) h)

theorem key_app (h : m.keypad = id) (k : Nat) : (m.app s).key k = s.key k := by
  simp [State.key, SideChange.app, h]

theorem commutes_skpVx (x : RegIx) (hk : m.keypad = id) : Commutes (.skpVx x) m s := by
  rcases Nat.lt_or_ge 15 (s.reg x).toNat with h | h
  · exact .of_next (exec_skpVx_of_gt h) (exec_skpVx_of_gt (s := m.app s) h)
  · exact .of_skipIf (exec_skpVx_of_le h) (key_app hk _ ▸ exec_skpVx_of_le (s := m.app s) h)

theorem commutes_sknpVx (x : RegIx) (hk : m.keypad = id) : Commutes (.sknpVx x) m s := by
  rcases Nat.lt_or_ge 15 (s.reg x).toNat with h | h
  · exact .of_next (exec_sknpVx_of_gt h) (exec_sknpVx_of_gt (s := m.app s) h)
  · exact .of_skipIf (exec_sknpVx_of_le h) (key_app hk _ ▸ exec_sknpVx_of_le (s := m.app s) h)

theorem commutes_ldBVx (x : RegIx) : Commutes (.ldBVx x) m s := by
  rcases Nat.lt_or_ge 4096 (s.i + 3) with h | h
  · exact .of_next (exec_ldBVx_of_gt h) (exec_ldBVx_of_gt (s := m.app s) h)
  · exact .of_next (exec_ldBVx_of_le h) (exec_ldBVx_of_le (s := m.app s) h)

theorem commutes_ldMemVx (x : RegIx) : Commutes (.ldMemVx x) m s := by
  rcases Nat.lt_or_ge 4096 (s.i + (x.toNat + 1)) with h | h
  · exact .of_next (exec_ldMemVx_of_gt h) (exec_ldMemVx_of_gt (s := m.app s) h)
  · exact .of_next (exec_ldMemVx_of_le h) (exec_ldMemVx_of_le (s := m.app s) h)

theorem commutes_ldVxMem (x : RegIx) : Commutes (.ldVxMem x) m s := by
  rcases Nat.lt_or_ge 4096 (s.i + (x.toNat + 1)) with h | h
  · exact .of_next (exec_ldVxMem_of_gt h) (exec_ldVxMem_of_gt (s := m.app s) h)
  · exact .of_next (exec_ldVxMem_of_le h) (exec_ldVxMem_of_le (s := m.app s) h)

/-- DRW draws on the framebuffer, which the change leaves alone. -/
theorem commutes_drwVxVyNibble (x y : RegIx) (n : Nibble) (hf : m.fb = id) : Commutes (.drwVxVyNibble x y n) m s := by
  obtain ⟨_, _, _, _, _, fb, _⟩ := m
  obtain rfl : fb = id := hf
  by_cases h : SpriteReadable s n
  · exact .of_next (exec_drwVxVyNibble_of_readable h) (exec_drwVxVyNibble_of_readable (s := SideChange.app _ s) h)
  · exact .of_next (exec_drwVxVyNibble_of_not_readable h)
      (exec_drwVxVyNibble_of_not_readable (s := SideChange.app _ s) h)

/-- LD Vx, K reads the keypad, which the change leaves alone. -/
theorem commutes_ldVxK (x : RegIx) (hk : m.keypad = id) : Commutes (.ldVxK x) m s := by
  obtain ⟨keypad, _, _, _, _, _, _⟩ := m
  obtain rfl : keypad = id := hk
  cases h : s.wait with
  | false => exact .of_next (exec_ldVxK_arms x h) (exec_ldVxK_arms (s := SideChange.app _ s) x h)
  | true =>
    by_cases hn : s.newKeys = 0
    · exact .of_next (exec_ldVxK_samples x h hn) (exec_ldVxK_samples (s := SideChange.app _ s) x h hn)
    · exact .of_next (exec_ldVxK_completes x h hn) (exec_ldVxK_completes (s := SideChange.app _ s) x h hn)

/-! ## The instructions that handle one of the elements in every state -/

theorem commutes_rndVxByte (x : RegIx) (nn : Byte) (h : m.rnd = id ∧ m.draws = id) :
    Commutes (.rndVxByte x nn) m s := by
  obtain ⟨_, rnd, draws, _, _, _, _⟩ := m
  obtain ⟨rfl, rfl⟩ : rnd = id ∧ draws = id := h
  rfl

theorem commutes_cls (h : m.fb = id) : Commutes .cls m s := by
  obtain ⟨_, _, _, _, _, fb, _⟩ := m
  obtain rfl : fb = id := h
  rfl

theorem commutes_ldVxDt (x : RegIx) (h : m.dt = id) : Commutes (.ldVxDt x) m s := by
  obtain ⟨_, _, _, dt, _, _, _⟩ := m
  obtain rfl : dt = id := h
  rfl

theorem commutes_ldDtVx (x : RegIx) (h : m.dt = id) : Commutes (.ldDtVx x) m s := by
  obtain ⟨_, _, _, dt, _, _, _⟩ := m
  obtain rfl : dt = id := h
  rfl

theorem commutes_ldStVx (x : RegIx) (h : m.st = id) : Commutes (.ldStVx x) m s := by
  obtain ⟨_, _, _, _, st, _, _⟩ := m
  obtain rfl : st = id := h
  rfl

/-- An unseen change goes through every instruction. -/
theorem SideChange.Unseen.commutes (h : m.Unseen i) (s : State) :
    exec i (m.app s) = mapNext m.app (exec i s) := by
  show Commutes i m s
  cases i with
  | callAddr nnn => exact commutes_callAddr nnn
  | ret => exact commutes_ret
  | ldIVx x => exact commutes_ldIVx x
  | skpVx x => exact commutes_skpVx x (h.keypad rfl)
  | sknpVx x => exact commutes_sknpVx x (h.keypad rfl)
  | ldBVx x => exact commutes_ldBVx x
  | ldMemVx x => exact commutes_ldMemVx x
  | ldVxMem x => exact commutes_ldVxMem x
  | drwVxVyNibble x y n => exact commutes_drwVxVyNibble x y n (h.fb rfl)
  | ldVxK x => exact commutes_ldVxK x (h.keypad rfl)
  | rndVxByte x nn => exact commutes_rndVxByte x nn (h.random rfl)
  | cls => exact commutes_cls (h.fb rfl)
  | ldVxDt x => exact commutes_ldVxDt x (h.timers rfl)
  | ldDtVx x => exact commutes_ldDtVx x (h.timers rfl)
  | ldStVx x => exact commutes_ldStVx x (h.st rfl)
  | seVxByte | sneVxByte | seVxVy | sneVxVy => exact .of_skipIf rfl rfl
  | jpAddr | jpV0Addr | ldVxByte | addVxByte | ldVxVy | orVxVy | andVxVy | xorVxVy | addVxVy | subVxVy | shrVxVy
  | subnVxVy | shlVxVy | ldIAddr | addIVx => rfl

/-! ## The changes of the statements -/

/-- Settles O57: another keypad, and other random bytes with another draw counter, are unseen changes. -/
theorem inputsAreReadOnlyByTheirInstructions : Obligations.InputsAreReadOnlyByTheirInstructions := by
  unfold Obligations.InputsAreReadOnlyByTheirInstructions
  intro i s keys r d
  refine ⟨fun hi => ?keypad, fun hi => ?random⟩
  case keypad =>
    have h : SideChange.Unseen { keypad := fun _ => keys } i := { keypad := fun hr => by simp [hi] at hr }
    exact h.commutes s
  case random =>
    have h : SideChange.Unseen { rnd := fun _ => r, draws := fun _ => d } i :=
      { random := fun hr => by simp [hi] at hr }
    exact h.commutes s

/-- Settles O58: another ST and another framebuffer are unseen changes, and a write of the whole element makes them
of no account. -/
theorem outputsAreNotReadBack : Obligations.OutputsAreNotReadBack := by
  unfold Obligations.OutputsAreNotReadBack
  intro i s b f
  refine ⟨fun hi => ?st, fun hi => ?writesSt, fun hi => ?fb, fun hi => ?cls⟩
  case st =>
    have h : SideChange.Unseen { st := fun _ => b } i := { st := fun hw => by simp [hi] at hw }
    exact h.commutes s
  case writesSt =>
    cases i with
    | ldStVx x => rfl
    | _ => cases hi
  case fb =>
    have h : SideChange.Unseen { fb := fun _ => f } i := { fb := fun hw => by simp [hi] at hw }
    exact h.commutes s
  case cls =>
    subst hi
    rfl

/-- The instruction that writes ST is one that uses a timer. -/
theorem writesSt_of_not_usesTimers (h : usesTimers i = false) : writesSt i = false := by
  cases i with
  | ldStVx x => cases h
  | _ => rfl

/-- Settles O59: a tick is an unseen change of the two timers. -/
theorem tickCommutesWithOtherInstructions : Obligations.TickCommutesWithOtherInstructions := by
  unfold Obligations.TickCommutesWithOtherInstructions
  intro i s t hi hx
  have h : SideChange.Unseen { dt := tickTimer, st := tickTimer } i :=
    { timers := fun hu => by simp [hi] at hu
      st := fun hw => by simp [writesSt_of_not_usesTimers hi] at hw }
  have hc := h.commutes s
  rw [hx] at hc
  exact hc

/-! ## The commands to come (R24, R37) -/

/-- An instruction handles no command of the host. -/
theorem exec_inbox (i : Instr) (s : State) (l : List Command) :
    exec i { s with inbox := l } = mapNext (fun t => { t with inbox := l }) (exec i s) := by
  have h : SideChange.Unseen { inbox := fun _ => l } i := {}
  exact h.commutes s

theorem cycle_inbox (s : State) (l : List Command) :
    cycle { s with inbox := l } = mapNext (fun t => { t with inbox := l }) (cycle s) := by
  rcases cycle_cases s with ⟨hs, hc⟩ | ⟨hs, c, hf, hc⟩ | ⟨hs, w, e, hf, hd, hc⟩ | ⟨hs, w, i, hf, hd, hc⟩
  · rw [hc]
    exact cycle_of_halted (s := { s with inbox := l }) hs
  · rw [hc]
    exact cycle_of_fetch_error (s := { s with inbox := l }) hs hf
  · rw [hc]
    exact cycle_of_invalid (s := { s with inbox := l }) hs hf hd
  · rw [hc]
    exact (cycle_of_decoded (s := { s with inbox := l }) hs hf hd).trans (exec_inbox i s.closeLoad l)

theorem load_inbox (bytes : List Byte) (s : State) (l : List Command) :
    load bytes { s with inbox := l } = { load bytes s with inbox := l } := by
  by_cases h : loadResponse bytes s = .ok
  · rw [load_of_ok h]
    exact load_of_ok (s := { s with inbox := l }) h
  · rw [load_of_not_ok h]
    exact load_of_not_ok (s := { s with inbox := l }) h

theorem resume_inbox (pc : Word) (s : State) (l : List Command) :
    resume pc { s with inbox := l } = { resume pc s with inbox := l } := by
  cases h : s.fault.halted with
  | true =>
    rw [resume_of_halted pc h]
    exact resume_of_halted (s := { s with inbox := l }) pc h
  | false =>
    rw [resume_of_running pc h]
    exact resume_of_running (s := { s with inbox := l }) pc h

/-- Settles O48, command by command. -/
theorem commandsToComeAreNotSeen : Obligations.CommandsToComeAreNotSeen := by
  unfold Obligations.CommandsToComeAreNotSeen
  intro c s l
  cases c with
  | cycle => exact cycle_inbox s l
  | load bytes => exact congrArg _ (load_inbox bytes s l)
  | resume pc => exact congrArg _ (resume_inbox pc s l)
  | reset | tick | keypad | random => rfl

end Sys2Proof.Machine
end

section
/-! SUPPORT. The input commands and RESUME (spec/10_state.md R16, R21, R24, spec/60_exceptions.md R110), and the retry
of a faulting instruction. -/

namespace Sys2Proof.Machine

open Sys2Proof.Claims

variable {i : Instr} {s t u : State}

/-- Settles O47, by the one next state of each input command. -/
theorem inputCommandsSetTheirInputAlone : Obligations.InputCommandsSetTheirInputAlone := by
  unfold Obligations.InputCommandsSetTheirInputAlone
  intro s keys b
  exact ⟨⟨_, rfl, rfl, rfl, byte_congr rfl rfl⟩, ⟨_, rfl, rfl, rfl, byte_congr rfl rfl⟩⟩

/-- Settles O50, by RESUME on each side of HALTED. -/
theorem resumeOnlyWhileHalted : Obligations.ResumeOnlyWhileHalted := by
  unfold Obligations.ResumeOnlyWhileHalted
  intro s pc
  exact ⟨fun h => ⟨congrArg _ h, congrArg _ (resume_of_halted pc h)⟩,
    fun h => ⟨congrArg _ h, congrArg _ (resume_of_running pc h)⟩⟩

/-! ## The retry (R110) -/

/-- The fault of an instruction depends on SP, on I and on the registers, which only LD Vx, [I] loads before it
faults. -/
theorem faultOf_congr (hsp : u.sp = s.sp) (hi : u.i = s.i) (hv : (∀ x, i ≠ .ldVxMem x) → u.v = s.v) :
    faultOf i u = faultOf i s := by
  cases i with
  | ldVxMem x => simp only [faultOf, hi]
  | _ =>
    have hreg : ∀ x, u.reg x = s.reg x := fun x => by simp only [State.reg, hv nofun]
    simp only [faultOf, hsp, hi, hreg]

/-- The fault status names its cause. -/
theorem FaultCause.eq_of_code_addr {c d : FaultCause} (hk : c.kind.code = d.kind.code) (ha : c.addr = d.addr) :
    c = d := by
  cases c <;> cases d <;> simp_all [FaultCause.kind, FaultKind.code, FaultCause.addr]

/-- The fault status after fault entry depends on PC alone. -/
theorem takeFault_fault_congr {c : FaultCause} {w : Option Word} (h : u.pc = s.pc) :
    (takeFault c w u).fault = (takeFault c w s).fault := by
  simp only [takeFault, h]

/-- An instruction with a fault in a state enters that fault, whatever its partial effect. -/
theorem exec_of_faultOf {c : FaultCause} (h : faultOf i s = some (c.kind.code, c.addr)) :
    ∃ t, exec i s = .next t ∧ t.fault = (takeFault c (some (encode i)) s).fault := by
  obtain ⟨t, hx⟩ := exec_next i s
  refine ⟨t, hx, ?_⟩
  rcases exec_cases hx with ⟨hnone, _⟩ | ⟨d, u, hd, he, rfl⟩
  · simp [hnone] at h
  · obtain ⟨hk, ha⟩ : d.kind.code = c.kind.code ∧ d.addr = c.addr := by simpa [hd] using h
    obtain rfl := FaultCause.eq_of_code_addr hk ha
    exact takeFault_fault_congr he.pc

/-- A fault leaves what its own condition reads as it was. -/
theorem PartialEffect.faultOf_eq (h : PartialEffect i s u) : faultOf i u = faultOf i s :=
  faultOf_congr (congrArg State.sp h.rest :) h.index h.v

/-- Settles O52: the fetch reads the same two bytes at the same PC, and the condition of the fault still holds. -/
theorem retryFaultsAgain : Obligations.RetryFaultsAgain := by
  unfold Obligations.RetryFaultsAgain
  intro s t hrun h hh hb0 hb1
  rw [resume_of_halted _ hh, faultPc_of_cycle hrun h hh]
  have hfetch : fetch { t with fault := FaultStatus.clear, pc := s.pc } = fetch s := fetch_congr rfl hb0 hb1
  rcases cycle_cases s with ⟨hs, _⟩ | ⟨_, c, hf, hc⟩ | ⟨_, w, e, hf, hd, hc⟩ | ⟨_, w, i, hf, hd, hc⟩
  · simp [hrun] at hs
  · cases hc.symm.trans h
    exact ⟨_, cycle_of_fetch_error rfl (hfetch.trans hf), rfl⟩
  · cases hc.symm.trans h
    exact ⟨_, cycle_of_invalid rfl (hfetch.trans hf) hd, rfl⟩
  · rcases exec_cases (hc.symm.trans h) with ⟨_, hsame, _⟩ | ⟨c, u, hfault, he, rfl⟩
    · rw [hsame, closeLoad_fault, hrun] at hh
      cases hh
    · have hagain : faultOf i { u with fault := FaultStatus.clear, pc := s.pc, loadable := false } =
          some (c.kind.code, c.addr) := he.faultOf_eq.trans hfault
      obtain ⟨v, hx, hv⟩ := exec_of_faultOf hagain
      exact ⟨v, (cycle_of_decoded rfl (hfetch.trans hf) hd).trans hx, hv.trans (takeFault_fault_congr he.pc.symm)⟩

end Sys2Proof.Machine
end
